-- ==== Sys2Proof/Config.lean ====
section
/-!
DEFINITION. What the builder of one EDT-LPE block fixes (BITS, SW, THRESHOLD: 00_scope.md R5, R6; 10_state.md R21)
and the free values the spec leaves open (30_encoding.md R51; 70_reset_and_hazards.md R108; 00_scope.md R9).
Every `opaque` constant below has no body: nothing in Lean can evaluate it, so a theorem holds whatever it is.
-/

namespace Sys2Proof.Config

/-- The builder's choice of BITS, as the number of bits beyond the least legal width 1. -/
opaque bitsPick : Nat

/-- BITS, the width of the counter reading and of `last_steps`: any integer ≥ 1 (R5). -/
def BITS : Nat := bitsPick + 1

/-- The builder's choice of SW, as the number of bits beyond the least legal width 1. -/
opaque swPick : Nat

/-- SW, the width of one light sample: any integer ≥ 1 (R6). -/
def SW : Nat := swPick + 1

/-- The value of the domain 1 .. 2^sw − 1 (R6) that `pick` names; `pick = t − 1` names t. -/
def thresholdOf (sw pick : Nat) : BitVec sw := BitVec.ofNat sw (pick % (2 ^ sw - 1) + 1)

/-- The builder's choice of THRESHOLD, read by `thresholdOf`. -/
opaque thresholdPick : Nat

/-- THRESHOLD, the fixed detection threshold: any value of 1 .. 2^SW − 1 (R6). -/
def THRESHOLD : BitVec SW := thresholdOf SW thresholdPick

/-- `last_steps` between power-up and the first reset: unspecified (R108; 92_eei_decisions.md D9). A free value. -/
opaque powerUpSteps : BitVec BITS

/-- The `delta` port in a cycle that does not select it: unspecified, redrawn every cycle (R51; U2). A free value. -/
opaque freeDelta : Nat → BitVec (BITS + 1)

/-- The `present` port in a cycle that does not select it (R51; U2). A free value. -/
opaque freePresent : Nat → Bool

/-- The `pos` port in a cycle that does not select it (R51; U2). A free value. -/
opaque freePos : Nat → BitVec 4

/-- What the host drives on `rst` at an edge the pending list does not give: a free input (R9). -/
opaque freeRst : Nat → Bool

/-- What the host drives on `REQ` at an edge the pending list does not give: a free input (R9). -/
opaque freeReq : Nat → BitVec 2

/-- What the counter shows on `steps` at an edge the pending list does not give: a free input (R9, R24). -/
opaque freeSteps : Nat → BitVec BITS

/-- What the sensors show on `light` at an edge the pending list does not give: a free input (R9, R25). -/
opaque freeLight : Nat → BitVec (8 * SW)

end Sys2Proof.Config
end

