-- ==== Sys2Proof/Word.lean ====
section
/-!
DEFINITION. The words the block handles: readings, samples, light maps and the request word (00_scope.md R11;
20_memory.md R29), and the bundle of the block's input ports (30_encoding.md R52).
Bit 0 is the least significant bit of every one of them (00_scope.md R10; 20_memory.md R30).
-/

namespace Sys2Proof

/-- An encoder reading, and the contents of `last_steps`: BITS bits, unsigned (R15, R44). -/
abbrev Reading := BitVec Config.BITS

/-- A light map: NSENS = 8 unsigned samples of `sw` bits, index 0 robot-left to index 7 robot-right (R7, R25, R45). -/
abbrev LightMap (sw : Nat) := Vector (BitVec sw) 8

/-- The `light` port: the eight samples of a map packed side by side (R29, R31). -/
abbrev LightBus (sw : Nat) := BitVec (8 * sw)

/-- The request word `REQ[1:0]` = V, SEL (R42). -/
abbrev ReqWord := BitVec 2

/-- The values on the block's input ports at one rising edge of `clk` (R52, R53). `clk` itself is the step. -/
structure InputPorts where
  /-- Synchronous reset, active high (R105). -/
  rst : Bool
  /-- The request word (R42). -/
  req : ReqWord
  /-- The encoder reading (R44). -/
  steps : Reading
  /-- The light map on its bus (R45). -/
  light : LightBus Config.SW
  deriving DecidableEq, Repr

/-- Input ports on which the host asks nothing and every operand port is zero. -/
def InputPorts.quiet : InputPorts := { rst := false, req := 0b00#2, steps := 0, light := 0 }

end Sys2Proof
end

