-- ==== Sys2Proof/Syntax.lean ====
section
/-!
DEFINITION. The block's complete operation set: one constructor per row of spec/opcode_table.json
(00_scope.md R14; 30_encoding.md R46). The operand types make an out-of-range operand impossible to write,
as the ports make it impossible to present (30_encoding.md R44, R45).
-/

namespace Sys2Proof

/-- A request. -/
inductive Instr where
  /-- NOP: do nothing this cycle (R87). -/
  | nop
  /-- DELTA: poll the encoder with the reading on the `steps` port (R57). -/
  | delta (steps : Reading)
  /-- ESTIMATE: locate the line in the map on the `light` port (R73). -/
  | estimate (light : LightMap Config.SW)
  deriving DecidableEq, Repr

end Sys2Proof
end

