-- ==== Sys2Proof/WellFormed.lean ====
section
/-!
DEFINITION. What a legal build is and what a legal request is.
The bounds on the parameters are checks that can fail (00_scope.md R5, R6; 70_reset_and_hazards.md R111).
A request's own bounds hold by the types of its operands, so every request is well formed (60_exceptions.md R89, R98).
-/

namespace Sys2Proof

/-- A block may be built with these parameters: 1 ≤ BITS, 1 ≤ SW, 1 ≤ THRESHOLD ≤ 2^SW − 1 (R111). -/
def buildWellFormed (bits sw threshold : Nat) : Bool :=
  decide (1 ≤ bits) && decide (1 ≤ sw) && decide (1 ≤ threshold) && decide (threshold ≤ 2 ^ sw - 1)

/-- The number `s` can be presented on a `steps` port of `bits` bits (R44, R55). -/
def readingFits (bits s : Nat) : Bool := decide (s < 2 ^ bits)

/-- The number `v` can be presented as one sample of `sw` bits (R45, R55). -/
def sampleFits (sw v : Nat) : Bool := decide (v < 2 ^ sw)

/-- Every request is legal in every state: none is privileged, refused or reserved (R47, R89, R98). -/
def Instr.WellFormed : Instr → Bool
  | .nop => true
  | .delta _ => true
  | .estimate _ => true

end Sys2Proof
end

