-- ==== Sys2Proof/Decode.lean ====
section
/-!
DEFINITION. From the ports to a request and back (30_encoding.md R42 to R48; 20_memory.md R31).
There are no bytes and no fetch: a request is the 2-bit word on `REQ` with its operand port beside it.
Decoding is total on the words of `REQ` (R43); there is no reserved encoding to reject (R47).
-/

namespace Sys2Proof

/-- Sample i of the light bus: bits SW·i + SW − 1 down to SW·i (R31, R45). -/
def sampleAt {sw : Nat} (bus : LightBus sw) (i : Nat) : BitVec sw := bus.extractLsb' (sw * i) sw

/-- The light bus cut into its eight samples, index 0 in the least significant bits (R31, R45). -/
def unpackLight {sw : Nat} (bus : LightBus sw) : LightMap sw :=
  #v[sampleAt bus 0, sampleAt bus 1, sampleAt bus 2, sampleAt bus 3,
     sampleAt bus 4, sampleAt bus 5, sampleAt bus 6, sampleAt bus 7]

/-- A sample moved to its place i on the bus (R31). -/
def placeSample {sw : Nat} (v : BitVec sw) (i : Nat) : LightBus sw := v.setWidth (8 * sw) <<< (sw * i)

/-- The light bus that carries a map: sample i at bits SW·i + SW − 1 down to SW·i (R31). -/
def packLight {sw : Nat} (m : LightMap sw) : LightBus sw :=
  placeSample m[0] 0 ||| placeSample m[1] 1 ||| placeSample m[2] 2 ||| placeSample m[3] 3 |||
  placeSample m[4] 4 ||| placeSample m[5] 5 ||| placeSample m[6] 6 ||| placeSample m[7] 7

/-- V = `REQ[1]`: 1 asks for an operation this cycle (R42). -/
def reqValid (req : ReqWord) : Bool := req.getLsbD 1

/-- SEL = `REQ[0]`: 0 is DELTA, 1 is ESTIMATE; read only when V = 1 (R42). -/
def reqSelect (req : ReqWord) : Bool := req.getLsbD 0

/-- The request the ports carry (R43). -/
def decode (req : ReqWord) (steps : Reading) (light : LightBus Config.SW) : Instr :=
  match reqValid req, reqSelect req with
  | false, _ => .nop
  | true, false => .delta steps
  | true, true => .estimate (unpackLight light)

/-- The request the input ports carry when `rst` is low (R43, R53). -/
def InputPorts.request (p : InputPorts) : Instr := decode p.req p.steps p.light

/-- One row of the opcode map: a word w selects it when w AND mask = match (R46). -/
structure OpcodeRow where
  mnemonic : String
  matchBits : ReqWord
  maskBits : ReqWord
  deriving DecidableEq, Repr

/-- The complete opcode map (R46; spec/opcode_table.json). -/
def opcodeMap : List OpcodeRow :=
  [ { mnemonic := "NOP", matchBits := 0b00#2, maskBits := 0b10#2 },
    { mnemonic := "DELTA", matchBits := 0b10#2, maskBits := 0b11#2 },
    { mnemonic := "ESTIMATE", matchBits := 0b11#2, maskBits := 0b11#2 } ]

/-- Whether a word selects a row of the opcode map (R46). -/
def OpcodeRow.selects (r : OpcodeRow) (w : ReqWord) : Bool := w &&& r.maskBits == r.matchBits

/-- The mnemonic of a request's row. -/
def Instr.mnemonic : Instr → String
  | .nop => "NOP"
  | .delta _ => "DELTA"
  | .estimate _ => "ESTIMATE"

/-- The canonical request word of a request (R46, R47). -/
def encodeReq : Instr → ReqWord
  | .nop => 0b00#2
  | .delta _ => 0b10#2
  | .estimate _ => 0b11#2

/-- The input ports that present request `i` with `rst` low; an operand port the request does not read keeps
what `idle` has on it, since such a port may hold anything (R43, R55). -/
def encode (i : Instr) (idle : InputPorts) : InputPorts :=
  { rst := false
    req := encodeReq i
    steps := match i with
      | .nop => idle.steps
      | .delta s => s
      | .estimate _ => idle.steps
    light := match i with
      | .nop => idle.light
      | .delta _ => idle.light
      | .estimate m => packLight m }

/-- The input ports that present the opcode-table word `w` of `nbits` bits with both operand ports zero and `rst`
low; `none` where `w` has a bit above the two of `REQ`, which no port of the block could carry (R42, R52). -/
def tableWordPorts (nbits w : Nat) : Option InputPorts :=
  let v := w % 2 ^ nbits
  if v < 4 then some { InputPorts.quiet with req := BitVec.ofNat 2 v } else none

/-- The request the decoder reads from an opcode-table word, its operand ports zero. -/
def decodeTableWord (nbits w : Nat) : Option Instr := (tableWordPorts nbits w).map InputPorts.request

end Sys2Proof
end

