-- ==== Sys2Proof/Machine/State.lean ====
section
/-!
DEFINITION. The state of the block (10_state.md): its one register, and beside it what the model needs because a step
here answers a state only: the response of the latest cycle, the inputs still to come, and the counter of free values.
-/

namespace Sys2Proof.Machine

/-- The response of a step (00_scope.md R14). -/
inductive Response where
  /-- No response: a NOP cycle or a reset cycle (R87, R106). -/
  | none
  /-- The tracker's result d, an unbounded integer (R57). -/
  | delta (d : Int)
  /-- The estimator's result: absent, or present(q) with q the position in quarter units (R13, R73). -/
  | line (p : Option Int)
  deriving DecidableEq, Repr

/-- The block's output ports during one cycle (30_encoding.md R52). Not state (10_state.md R23): they are computed from
the response by `State.outputs`. -/
structure OutputPorts where
  /-- The tracker's result, BITS + 1 bits, two's complement (R49). -/
  delta : BitVec (Config.BITS + 1)
  /-- 1 when a line was detected (R50). -/
  present : Bool
  /-- The position in quarter units, two's complement (R50). -/
  pos : BitVec 4
  deriving DecidableEq, Repr

/-- The state. The spec gives the block ONE register, `last_steps` (R15); the other three fields are the model's own. -/
structure State where
  /-- `last_steps`: the reading of the most recent DELTA, or the reset value (R15). -/
  lastSteps : Reading
  /-- The response of the latest cycle. The model's own field: the block does not register its results (R23), and a
  step overwrites it whatever the request is. -/
  response : Response
  /-- What the environment will drive on the input ports at the coming edges, the next one first; past its end the
  inputs are free. The model's own field: the request sequence is the host's state (R9, R19). -/
  pending : List InputPorts
  /-- How many cycles have drawn free values. The model's own field; no spec-given effect reads it. -/
  draws : Nat
  deriving DecidableEq, Repr

/-- The reasons a step could stop with a fault. There is none: no request faults, hangs or traps, for any operand and
in any state (60_exceptions.md R89; 00_scope.md R14), so the type has no constructor. -/
inductive Fault where
  deriving DecidableEq, Repr

/-- The reasons a step could be refused. -/
inductive Refusal where
  /-- An arm of `exec` whose request has no meaning yet. Nobody raises it: all three requests have their meaning. It
  would be safe. -/
  | notModelled (mnemonic : String)
  deriving DecidableEq, Repr

/-- The block right after reset: `last_steps` is 0 and there is no response (10_state.md R27; 70_reset_and_hazards.md
R106). Nothing is pending, so the environment's inputs are free from the first edge on. -/
def State.reset : State := { lastSteps := 0, response := .none, pending := [], draws := 0 }

/-- The block between power-up and its first reset: `last_steps` is a free value (R27, R108). -/
def State.powerUp : State := { State.reset with lastSteps := Config.powerUpSteps }

end Sys2Proof.Machine
end

