-- ==== Sys2Proof/Machine/Ops.lean ====
section
/-!
DEFINITION. The named operations on the state: sampling the input ports, answering a request, writing the register, and
the reset step. The block takes no exception, so there is no exception entry and no return (60_exceptions.md R89, R95,
R96); the reset step is the one thing that takes a request's place (R94).
-/

namespace Sys2Proof.Machine

/-- The free inputs of an edge the pending list does not give (00_scope.md R9). -/
def freeInputs (n : Nat) : InputPorts :=
  { rst := Config.freeRst n, req := Config.freeReq n, steps := Config.freeSteps n, light := Config.freeLight n }

/-- What the block samples at the next rising edge, all ports at one instant (20_memory.md R34; 30_encoding.md R53). -/
def State.sampledInputs (s : State) : InputPorts :=
  match s.pending with
  | [] => freeInputs s.draws
  | p :: _ => p

/-- The state once the edge's inputs are sampled: they are not kept (10_state.md R22). -/
def State.consumeInputs (s : State) : State := { s with pending := s.pending.tail }

/-- The step's response is `r`; the free values are redrawn every cycle (00_scope.md R12; 93 U2). -/
def State.respond (s : State) (r : Response) : State := { s with response := r, draws := s.draws + 1 }

/-- `last_steps <- v` (00_scope.md R12). -/
def State.setLastSteps (s : State) (v : Reading) : State := { s with lastSteps := v }

/-- The reset step: `last_steps` takes 0, nothing else exists to be reset, and there is no response (R106). -/
def State.takeReset (s : State) : State := (s.setLastSteps 0).respond .none

/-- The environment will drive `p` at the very next edge. -/
def State.drive (s : State) (p : InputPorts) : State := { s with pending := p :: s.pending }

end Sys2Proof.Machine
end

