-- ==== Sys2Proof/Machine/Operands.lean ====
section
/-!
DEFINITION. Numbers on ports: reading an operand as an integer and putting a result on the output ports
(00_scope.md R11; 30_encoding.md R44, R45, R49 to R51).
-/

namespace Sys2Proof.Machine

/-- `zext(v)`: an unsigned bit vector as an integer (R11). -/
def zext {w : Nat} (v : BitVec w) : Int := (v.toNat : Int)

/-- `sext_W(v)`: a W-bit vector as a two's-complement integer (R11). -/
def sext {w : Nat} (v : BitVec w) : Int := v.toInt

/-- `tc_W(x)`: the W-bit vector x mod 2^W (R11). -/
def tc (w : Nat) (x : Int) : BitVec w := BitVec.ofInt w x

/-- The `delta` port's code of a tracker result, `bits` + 1 bits wide (R49). -/
def deltaCode (bits : Nat) (d : Int) : BitVec (bits + 1) := tc (bits + 1) d

/-- The `pos` port's code of an estimator result; the zero of `absent` is a filler and no position (R50). -/
def posCode : Option Int → BitVec 4
  | none => 0b0000#4
  | some q => tc 4 q

/-- The output ports during the latest cycle: the ports its response selects carry the response, the others are free
values (R49, R50, R51, R53). -/
def State.outputs (s : State) : OutputPorts :=
  match s.response with
  | .none =>
    { delta := Config.freeDelta s.draws, present := Config.freePresent s.draws, pos := Config.freePos s.draws }
  | .delta d =>
    { delta := deltaCode Config.BITS d, present := Config.freePresent s.draws, pos := Config.freePos s.draws }
  | .line p =>
    { delta := Config.freeDelta s.draws, present := p.isSome, pos := posCode p }

end Sys2Proof.Machine
end

