-- ==== Sys2Proof/Machine/Estimator.lean ====
section
/-!
DEFINITION. The Line Position Estimator (41_line_position.md): a maximum search with a threshold and a table, for every
sample width; `execEstimate` is the one request of the unit, at the build's width and threshold.
-/

namespace Sys2Proof.Machine

/-- POS_TABLE in quarter units, by the index of the maximum (R7, R77). -/
def posQ : Vector Int 8 := #v[4, 3, 2, 0, 0, -2, -3, -4]

/-- One comparison of the scan: only a strictly larger sample replaces the maximum so far (R73, R75). -/
def scanSample {sw : Nat} (m : LightMap sw) (best : Fin 8 × BitVec sw) (i : Fin 8) : Fin 8 × BitVec sw :=
  if m[i] > best.2 then (i, m[i]) else best

/-- The left-to-right scan: the index of the first maximum and the maximum (R73, R74). -/
def firstMax {sw : Nat} (m : LightMap sw) : Fin 8 × BitVec sw :=
  ([1, 2, 3, 4, 5, 6, 7] : List (Fin 8)).foldl (scanSample m) (0, m[0])

/-- The estimator's result for a map: absent if the maximum is below the threshold, else the table's entry (R73, R76,
R77). -/
def lineEstimate {sw : Nat} (threshold : BitVec sw) (m : LightMap sw) : Option Int :=
  let best := firstMax m
  if best.2 < threshold then none else some posQ[best.1]

/-- ESTIMATE: answer the line's position; `last_steps` is neither read nor written (R73, R79). -/
def execEstimate (light : LightMap Config.SW) (s : State) : Host.Outcome State Fault Refusal :=
  .next (s.respond (.line (lineEstimate Config.THRESHOLD light)))

end Sys2Proof.Machine
end

