-- ==== Sys2Proof/Machine/Idle.lean ====
section
/-!
DEFINITION. The idle request (42_no_operation.md). The classes of operation the block lacks (control transfer, loads and
stores, system operations, lane-wise operations: R121 to R124) have no meaning to give.
-/

namespace Sys2Proof.Machine

/-- NOP: no response, and `last_steps` keeps its value (R87). -/
def execNop (s : State) : Host.Outcome State Fault Refusal := .next (s.respond .none)

end Sys2Proof.Machine
end

