-- ==== Sys2Proof/Machine/Tracker.lean ====
section
/-!
DEFINITION. The Encoder Delta Tracker (40_encoder_delta.md). The arithmetic is written for every width, on unbounded
integers (R11, R70); `execDelta` is the one request of the unit, at the build's width.
-/

namespace Sys2Proof.Machine

/-- The counter's modulus N = 2^BITS (R5). -/
def modulus (bits : Nat) : Int := 2 ^ bits

/-- The most significant bit of a reading, bit (BITS − 1) (R10, R59). -/
def topBit {bits : Nat} (v : BitVec bits) : Bool := v.getLsbD (bits - 1)

/-- The raw difference of the two readings, which does not wrap (R58). -/
def rawDelta {bits : Nat} (l s : BitVec bits) : Int := zext s - zext l

/-- Wrap detection: the most significant bits of the two readings differ, and no other test is made (R59). -/
def wrapDetected {bits : Nat} (l s : BitVec bits) : Bool := topBit s != topBit l

/-- The correction of a detected wrap by one modulus (R60). -/
def wrapCorrection {bits : Nat} (l s : BitVec bits) : Int :=
  if s > l then -modulus bits
  else if s < l then modulus bits
  else 0

/-- The result d of a poll that reads `s` when `last_steps` is `l` (R57). -/
def trackerDelta {bits : Nat} (l s : BitVec bits) : Int :=
  if wrapDetected l s then rawDelta l s + wrapCorrection l s else rawDelta l s

/-- DELTA: answer the corrected delta and make `steps` the new `last_steps`, whatever the delta (R57, R61). -/
def execDelta (steps : Reading) (s : State) : Host.Outcome State Fault Refusal :=
  .next ((s.setLastSteps steps).respond (.delta (trackerDelta s.lastSteps steps)))

end Sys2Proof.Machine
end

