-- ==== Sys2Proof/Machine/Dispatch.lean ====
section
/-!
DEFINITION. Which meaning each request has (00_scope.md R14; 30_encoding.md R46).
-/

namespace Sys2Proof.Machine

/-- The operation-level step of a request. -/
def exec (i : Instr) (s : State) : Host.Outcome State Fault Refusal :=
  match i with
  | .nop => Sys2Proof.Machine.execNop s
  | .delta steps => Sys2Proof.Machine.execDelta steps s
  | .estimate light => Sys2Proof.Machine.execEstimate light s

end Sys2Proof.Machine
end

