-- ==== Sys2Proof/Machine/Step.lean ====
section
/-!
DEFINITION. One rising edge of `clk` is one step (30_encoding.md R53): sample the ports, then the reset step if `rst` is
high (60_exceptions.md R94), else the request the ports carry.
-/

namespace Sys2Proof.Machine

/-- One clock cycle of the block (R53). -/
def step (s : State) : Host.Outcome State Fault Refusal :=
  match s.sampledInputs.rst with
  | true => .next s.consumeInputs.takeReset
  | false => exec s.sampledInputs.request s.consumeInputs

/-- The state whose next edge presents the opcode-table word `w`, both operand ports zero and `rst` low. A word that is
no word of `REQ` cannot be presented and changes nothing. -/
def State.withFetchWord (s : State) (nbits w : Nat) : State :=
  match tableWordPorts nbits w with
  | some p => s.drive p
  | none => s

end Sys2Proof.Machine
end

