-- ==== Sys2Proof/Machine/Listing.lean ====
section
/-!
DEFINITION. The textual form of request sequences (30_encoding.md R55, R56): lines, the pseudo-operations SYNC and POLL,
the directive RESET, reading a line from its characters, and writing a response after `=>`.
It drives the input ports only; no meaning depends on it.
-/

namespace Sys2Proof.Machine

/-- One line of a listing (R55), the two pseudo-operations of R56 included. -/
inductive Line where
  /-- An empty line or a line that holds a comment only. -/
  | blank
  | nop
  | delta (s : Nat)
  | estimate (samples : Vector Nat 8)
  /-- The directive RESET: a cycle with `rst` = 1 (R54, R55). -/
  | reset
  /-- `SYNC s`: a DELTA whose response the host discards (R56). -/
  | sync (s : Nat)
  /-- `POLL`: a DELTA of whatever the counter holds in that cycle (R56). -/
  | poll
  deriving DecidableEq, Repr

/-- Every number of the line fits its port, for a block of these widths (R55). -/
def Line.wellFormed (bits sw : Nat) : Line → Bool
  | .blank => true
  | .nop => true
  | .delta s => readingFits bits s
  | .estimate samples => samples.toList.all (sampleFits sw)
  | .reset => true
  | .sync s => readingFits bits s
  | .poll => true

/-- What a well-formed line drives on the input ports while the counter shows `counter`; a blank line is no cycle.
The operand ports the line does not use are zero. -/
def Line.inputs (counter : Reading) : Line → Option InputPorts
  | .blank => none
  | .nop => some (encode .nop InputPorts.quiet)
  | .delta s => some (encode (.delta (BitVec.ofNat _ s)) InputPorts.quiet)
  | .estimate samples => some (encode (.estimate (samples.map (BitVec.ofNat _))) InputPorts.quiet)
  | .reset => some { InputPorts.quiet with rst := true }
  | .sync s => some (encode (.delta (BitVec.ofNat _ s)) InputPorts.quiet)
  | .poll => some (encode (.delta counter) InputPorts.quiet)

/-- The cycles of a listing, each line with the counter's reading in that cycle; none if a number of it does not fit
its port. -/
def listingInputs (lines : List (Reading × Line)) : Option (List InputPorts) :=
  if lines.all (fun l => l.2.wellFormed Config.BITS Config.SW) then
    some (lines.filterMap fun l => l.2.inputs l.1)
  else none

/-- The value of a digit character, decimal or hexadecimal. -/
def digitValue (c : Char) : Option Nat :=
  let n := c.toNat
  if 48 ≤ n ∧ n ≤ 57 then some (n - 48)
  else if 65 ≤ n ∧ n ≤ 70 then some (n - 55)
  else if 97 ≤ n ∧ n ≤ 102 then some (n - 87)
  else none

/-- Digits in a base, most significant first, read on from the value `acc`. -/
def readDigits (base : Nat) : Nat → List Char → Option Nat
  | acc, [] => some acc
  | acc, c :: cs =>
    match digitValue c with
    | some d => if d < base then readDigits base (acc * base + d) cs else none
    | none => none

/-- `number ::= decimal | "0x" hexadecimal`, with at least one digit (R55). -/
def readNumber : List Char → Option Nat
  | [] => none
  | ['0', 'x'] => none
  | '0' :: 'x' :: cs => readDigits 16 0 cs
  | cs => readDigits 10 0 cs

/-- The characters without blanks at either end. -/
def trimBlanks (cs : List Char) : List Char :=
  ((cs.dropWhile (· == ' ')).reverse.dropWhile (· == ' ')).reverse

/-- The pieces between commas. -/
def splitAtCommas : List Char → List (List Char)
  | [] => [[]]
  | c :: cs =>
    match splitAtCommas cs with
    | [] => [[c]]
    | piece :: pieces => if c == ',' then [] :: piece :: pieces else (c :: piece) :: pieces

/-- The numbers of a comma-separated list, or none if a piece is no number. -/
def readNumbers (cs : List Char) : Option (List Nat) :=
  (splitAtCommas cs).mapM fun piece => readNumber (trimBlanks piece)

/-- A line read from its characters: `[ request | directive ] [ ";" comment ]` (R55), SYNC and POLL included (R56). -/
def readLine (text : List Char) : Option Line :=
  let body := trimBlanks (text.takeWhile (· != ';'))
  let word := body.takeWhile (· != ' ')
  let rest := trimBlanks (body.dropWhile (· != ' '))
  match word, rest with
  | [], [] => some .blank
  | ['N', 'O', 'P'], [] => some .nop
  | ['R', 'E', 'S', 'E', 'T'], [] => some .reset
  | ['P', 'O', 'L', 'L'], [] => some .poll
  | ['D', 'E', 'L', 'T', 'A'], n => (readNumber n).map .delta
  | ['S', 'Y', 'N', 'C'], n => (readNumber n).map .sync
  | ['E', 'S', 'T', 'I', 'M', 'A', 'T', 'E'], ns =>
    match readNumbers ns with
    | some [a, b, c, d, e, f, g, h] => some (.estimate #v[a, b, c, d, e, f, g, h])
    | _ => none
  | _, _ => none

/-- What a listing writes after a line: nothing, `=> delta d`, `=> absent` or `=> pos q/4` (R55). -/
def Response.written : Response → String
  | .none => ""
  | .delta d => "=> delta " ++ toString d
  | .line Option.none => "=> absent"
  | .line (some q) => "=> pos " ++ toString q ++ "/4"

end Sys2Proof.Machine
end

