-- ==== Sys2Proof/Safety.lean ====
section
/-!
DEFINITION. The terms claims are made in. The block itself never stops, so a safe run is one whose responses mean what
the host takes them for: the half-range and midpoint conditions on the counter's motion (40_encoder_delta.md R65 to R67;
70_reset_and_hazards.md R114, R115), the host's recovery of a motion, and the responses of a run (00_scope.md R14).
-/

namespace Sys2Proof.Safety

open Sys2Proof.Machine

/-- Half the counter's range, H = 2^(BITS−1) (R5). -/
def halfRange (bits : Nat) : Int := 2 ^ (bits - 1)

/-- The ideal modular delta M(s, l) = sext_BITS((s − l) mod N) (R65). The block does not compute it. -/
def idealDelta {bits : Nat} (l s : BitVec bits) : Int := sext (s - l)

/-- The counter's value after a signed motion m from l: (l + m) mod N (R24, R65). -/
def counterAfter {bits : Nat} (l : BitVec bits) (m : Int) : BitVec bits := tc bits (zext l + m)

/-- The half-range constraint on the true motion between two polls: |m| ≤ H − 1 (R66, R114). -/
def withinHalfRange (bits : Nat) (m : Int) : Prop := -(halfRange bits - 1) ≤ m ∧ m ≤ halfRange bits - 1

/-- The two readings lie in the same half of the counter's range (R65 (a)). -/
def sameHalf {bits : Nat} (l s : BitVec bits) : Prop := topBit s = topBit l

/-- A motion of m from l crosses the midpoint without a wrap: l + m stays in 0 .. N − 1 and lies in the other half
(R67). -/
def crossesMidpoint {bits : Nat} (l : BitVec bits) (m : Int) : Prop :=
  0 ≤ zext l + m ∧ zext l + m < modulus bits ∧ ¬(zext l < halfRange bits ↔ zext l + m < halfRange bits)

/-- What a host computes from the low BITS bits of the `delta` port, `sext_BITS(delta[BITS−1:0])` (R65, R115 (a)). -/
def lowBitsDelta {bits : Nat} (port : BitVec (bits + 1)) : Int := sext (port.setWidth bits)

/-- What a host computes that treats a response of magnitude H or more as the midpoint anomaly (R115 (b)). -/
def magnitudeRecovery (bits : Nat) (d : Int) : Int :=
  if halfRange bits ≤ d then d - modulus bits
  else if d ≤ -halfRange bits then d + modulus bits
  else d

/-- The state with `ps` as the inputs of the coming edges. -/
def withInputs (s : State) (ps : List InputPorts) : State := { s with pending := ps }

/-- The responses of the next k cycles, in order. -/
def responses : Nat → State → List Response
  | 0, _ => []
  | k + 1, s =>
    match step s with
    | .next t => t.response :: responses k t
    | .fault _ => []
    | .refused _ => []

/-- The responses a run gives to the cycles `ps` (R14). -/
def runResponses (s : State) (ps : List InputPorts) : List Response := responses ps.length (withInputs s ps)

/-- How a run over the cycles `ps` ends (R14). -/
def runEnd (s : State) (ps : List InputPorts) : Host.Outcome State Fault Refusal :=
  core.run ps.length (withInputs s ps)

/-- The tracker results among the responses. -/
def deltasOf (rs : List Response) : List Int :=
  rs.filterMap fun r => match r with
    | .delta d => some d
    | .none => none
    | .line _ => none

/-- The estimator results among the responses. -/
def linesOf (rs : List Response) : List (Option Int) :=
  rs.filterMap fun r => match r with
    | .line p => some p
    | .none => none
    | .delta _ => none

/-- The DELTA cycles of polls between which the counter makes the motions `ms`, starting from the reading `l`. -/
def pollsAfterMotions (l : Reading) : List Int → List InputPorts
  | [] => []
  | m :: ms => encode (.delta (counterAfter l m)) InputPorts.quiet :: pollsAfterMotions (counterAfter l m) ms

/-- Every motion of `ms`, made one after the other from `l`, keeps to the half-range constraint and does not cross the
midpoint (R66 to R68, R114, R115). -/
def motionsTrustworthy (l : Reading) : List Int → Prop
  | [] => True
  | m :: ms =>
    withinHalfRange Config.BITS m ∧ ¬crossesMidpoint l m ∧ motionsTrustworthy (counterAfter l m) ms

/-- The cycle is idle: `rst` low and a NOP (R87). -/
def idleCycle (p : InputPorts) : Bool := !p.rst && decide (p.request = .nop)

/-- The cycle presents an ESTIMATE with `rst` low. -/
def estimateCycle (p : InputPorts) : Bool := !p.rst && reqValid p.req && reqSelect p.req

/-- The cycle presents a DELTA with `rst` low. -/
def deltaCycle (p : InputPorts) : Bool := !p.rst && reqValid p.req && !reqSelect p.req

/-- `last_steps` after the cycles `ps`, from `l`: the reading of the last DELTA, or 0 if a reset came after it (R15). -/
def registerAfter (l : Reading) (ps : List InputPorts) : Reading :=
  ps.foldl (fun l p => if p.rst then 0 else if deltaCycle p then p.steps else l) l

/-- The response is one the block can give: a delta within −(N − 1) .. N − 1 (R62), an estimator result that is absent
or one of the seven positions (R82). -/
def responsePossible : Response → Prop
  | .none => True
  | .delta d => -(modulus Config.BITS - 1) ≤ d ∧ d ≤ modulus Config.BITS - 1
  | .line none => True
  | .line (some q) => q ∈ [(4 : Int), 3, 2, 0, -2, -3, -4]

end Sys2Proof.Safety
end

