-- ==== Sys2Proof/Certificates/Slice0/Obligations.lean ====
section
/-!
DEFINITION. The statements about the EDT-LPE block, from the numbered rules of spec/.
Tracker and estimator laws are stated for EVERY width (and threshold); statements about `exec` and `step` are about the
build's own BITS, SW and THRESHOLD, which are opaque constants, so they too hold for every legal build.
-/

open Sys2Proof Sys2Proof.Machine Sys2Proof.Safety

/-! ### The cycle: 30_encoding.md section 5, 70_reset_and_hazards.md section 1 -/

/-- A cycle with `rst` low runs the request its ports carry, on the state without that cycle's inputs; the cycle's
inputs are the head of the pending list (assumption log 2), and free when it is empty. 30_encoding.md section 5. -/
def Obligations.StepRunsSampledRequest : Prop :=
  (∀ s : State, s.sampledInputs.rst = false →
    step s = exec (decode s.sampledInputs.req s.sampledInputs.steps s.sampledInputs.light) s.consumeInputs) ∧
  (∀ s : State, s.consumeInputs.lastSteps = s.lastSteps ∧ s.consumeInputs.response = s.response ∧
    s.consumeInputs.draws = s.draws) ∧
  (∀ (s : State) (p : InputPorts) (ps : List InputPorts), s.pending = p :: ps →
    s.sampledInputs = p ∧ s.consumeInputs.pending = ps) ∧
  (∀ s : State, s.pending = [] → s.sampledInputs = freeInputs s.draws ∧ s.consumeInputs.pending = [])

/-- R106: a cycle with `rst` high leaves `last_steps` = 0 whatever is on `REQ` and `steps`, and has no response. -/
def Obligations.ResetEdgeClearsRegister : Prop :=
  ∀ s : State, s.sampledInputs.rst = true →
    ∃ t, step s = .next t ∧ t.lastSteps = 0 ∧ t.response = .none ∧ t.pending = s.pending.tail

/-- `rst` may be held for any number of edges, with any requests beside it; all leave the same register and no
response. 70_reset_and_hazards.md section 1 (R105), 60_exceptions.md section 2 (R94). -/
def Obligations.HeldResetLeavesZero : Prop :=
  ∀ (s : State) (p : InputPorts) (ps : List InputPorts), (∀ q ∈ p :: ps, q.rst = true) →
    ∃ t, runEnd s (p :: ps) = .next t ∧ t.lastSteps = 0 ∧ t.response = .none

/-- The state after reset. The value 0 is the spec's decision D8 (10_state.md section 5). -/
def Obligations.ResetStateHoldsZero : Prop :=
  State.reset.lastSteps.toNat = 0 ∧ State.reset.response = .none

/-- Before the first reset `last_steps` is a free value (log 7): ESTIMATE and NOP answer as after reset, a DELTA answers R57
of the free value, whatever it is, and leaves its reading, and a reset cycle leaves 0 (70_reset_and_hazards.md section 1,
R108). -/
def Obligations.PowerUpRequestsComplete : Prop :=
  (∃ t, exec .nop State.powerUp = .next t ∧ t.response = .none) ∧
  (∀ m, ∃ t u, exec (.estimate m) State.powerUp = .next t ∧ exec (.estimate m) State.reset = .next u ∧
    t.response = u.response) ∧
  (∀ r, ∃ t, exec (.delta r) State.powerUp = .next t ∧ t.lastSteps = r ∧
    t.response = .delta (trackerDelta Config.powerUpSteps r)) ∧
  (∀ p : InputPorts, p.rst = true → ∃ t, step (State.powerUp.drive p) = .next t ∧ t.lastSteps = 0)

/-- R89: no request faults or is refused, for any operand and in any state, and neither does any cycle. -/
def Obligations.EveryRequestCompletes : Prop :=
  (∀ (i : Instr) (s : State), ∃ t, exec i s = .next t) ∧ (∀ s : State, ∃ t, step s = .next t) ∧
  (∀ (req : ReqWord) (steps : Reading) (light : LightBus Config.SW), (decode req steps light).WellFormed = true)

/-! ### The requests: completion, effect and frame -/

/-- NOP, in both its encodings, has no response and changes no state (42_no_operation.md section 1, R87); the three result
ports are unspecified, in the model free values of the cycle, whatever they are (the model's choice of form, log 4). -/
def Obligations.NopDoesNothing : Prop :=
  (∀ (steps : Reading) (light : LightBus Config.SW),
    decode 0b00#2 steps light = .nop ∧ decode 0b01#2 steps light = .nop) ∧
  (∀ s : State, ∃ t, exec .nop s = .next t ∧
    t.response = .none ∧ t.lastSteps = s.lastSteps ∧ t.pending = s.pending ∧
    t.outputs = { delta := Config.freeDelta t.draws, present := Config.freePresent t.draws,
                  pos := Config.freePos t.draws })

/-- R57 with R61: the rule's pseudocode, written out on integers, and the register's unconditional update. -/
def Obligations.DeltaAnswersCorrectedDifference : Prop :=
  (∀ (steps : Reading) (light : LightBus Config.SW), decode 0b10#2 steps light = .delta steps) ∧
  (∀ (s : State) (r : Reading), ∃ t, exec (.delta r) s = .next t ∧
    t.lastSteps = r ∧ t.pending = s.pending ∧
    t.response = .delta
      (let raw : Int := (r.toNat : Int) - s.lastSteps.toNat
       if r.getLsbD (Config.BITS - 1) ≠ s.lastSteps.getLsbD (Config.BITS - 1) then
         if r.toNat > s.lastSteps.toNat then raw - 2 ^ Config.BITS
         else if r.toNat < s.lastSteps.toNat then raw + 2 ^ Config.BITS
         else raw
       else raw))

/-- R73 to R75: some index holds a maximum that no earlier index reaches; the response is absent if that maximum is
below THRESHOLD, and else the table's entry at that index. `last_steps` is not touched. -/
def Obligations.EstimateReportsFirstMaximum : Prop :=
  (∀ (steps : Reading) (light : LightBus Config.SW), decode 0b11#2 steps light = .estimate (unpackLight light)) ∧
  (∀ (s : State) (m : LightMap Config.SW), ∃ (t : State) (i : Fin 8), exec (.estimate m) s = .next t ∧
    (∀ j : Fin 8, m[j].toNat ≤ m[i].toNat) ∧ (∀ j : Fin 8, j < i → m[j].toNat < m[i].toNat) ∧
    t.response = .line
      (if m[i].toNat < Config.THRESHOLD.toNat then none
       else some ((#v[4, 3, 2, 0, 0, -2, -3, -4] : Vector Int 8)[i])) ∧
    t.lastSteps = s.lastSteps ∧ t.pending = s.pending)

/-- The frame of every request: nothing but `last_steps` can change beside the response and the count of draws, DELTA
alone changes it, and DELTA alone reads it. 10_state.md section 1 (R16), 41_line_position.md section 3 (R79). -/
def Obligations.OnlyDeltaTouchesRegister : Prop :=
  (∀ (i : Instr) (s t : State), exec i s = .next t →
    t.pending = s.pending ∧ t.draws = s.draws + 1 ∧ ((∀ r, i ≠ .delta r) → t.lastSteps = s.lastSteps)) ∧
  (∀ (i : Instr) (s s' t t' : State), (∀ r, i ≠ .delta r) → exec i s = .next t → exec i s' = .next t' →
    t.response = t'.response)

/-! ### Ports and encodings: 30_encoding.md -/

/-- R43: decoding is total, reads V and then SEL, and reads the operand port of the request it selects and no other. -/
def Obligations.DecodeFollowsRequestWord : Prop :=
  (∀ (req : ReqWord) (steps : Reading) (light : LightBus Config.SW), decode req steps light =
    if req.getLsbD 1 = false then .nop
    else if req.getLsbD 0 = false then .delta steps
    else .estimate (Vector.ofFn fun i : Fin 8 => light.extractLsb' (Config.SW * i.val) Config.SW)) ∧
  (∀ (req : ReqWord) (steps steps' : Reading) (light light' : LightBus Config.SW),
    (req = 0b10#2 → steps = steps') → (req = 0b11#2 → light = light') →
    decode req steps light = decode req steps' light')

/-- Every request, put on the ports with anything on the operand port it does not read, decodes to itself. The
encodings are the spec's decisions D3 and D4 (30_encoding.md sections 1 and 2). -/
def Obligations.DecodeInvertsEncode : Prop :=
  ∀ (i : Instr) (idle : InputPorts), (encode i idle).request = i ∧ (encode i idle).rst = false

/-- Ports that carry a request in its canonical word are the encoding of that request: no bit of an operand port the
request reads is dropped. 30_encoding.md sections 1 to 3. -/
def Obligations.EncodeInvertsDecode : Prop :=
  ∀ p : InputPorts, p.rst = false → p.req ≠ 0b01#2 → encode p.request p = p

/-- The three rows partition the four words of `REQ`, and a word decodes to the request of the row it selects.
30_encoding.md section 3 (R46). -/
def Obligations.OpcodeRowsPartitionWords : Prop :=
  ∀ (w : ReqWord) (steps : Reading) (light : LightBus Config.SW),
    ∃ r ∈ opcodeMap, r.selects w = true ∧ r.mnemonic = (decode w steps light).mnemonic ∧
      ∀ q ∈ opcodeMap, q.selects w = true → q = r

/-- R31: sample i of the map occupies `light[SW·i + SW − 1 : SW·i]`, for decoding and for encoding. -/
def Obligations.SamplesLieInIndexOrder : Prop :=
  ∀ (sw : Nat) (bus : LightBus sw) (m : LightMap sw) (i : Fin 8) (j : Nat), j < sw →
    (unpackLight bus)[i].getLsbD j = bus.getLsbD (sw * i.val + j) ∧
    (packLight m).getLsbD (sw * i.val + j) = m[i].getLsbD j

/-- The four words of `REQ`, and the map of 95_test_vectors.md E17 on its bus. A sanity statement (30_encoding.md
section 3, 20_memory.md section 2). -/
def Obligations.WrittenOutWordsDecode : Prop :=
  decode 0b00#2 5 0 = .nop ∧ decode 0b01#2 5 0 = .nop ∧ decode 0b10#2 5 0 = .delta 5 ∧
  decode 0b11#2 5 0 = .estimate (unpackLight 0) ∧
  unpackLight 0x384BB870806E0780960C8064#96 =
    (#v[100#12, 200#12, 150#12, 120#12, 110#12, 1800#12, 3000#12, 900#12] : LightMap 12)

/-- R49: the `delta` port carries the response in two's complement, the host gets the response back by sign extension,
every result lies in −(2^BITS − 1) .. 2^BITS − 1, and the code 1 followed by BITS zeros never appears. -/
def Obligations.DeltaPortCarriesResult : Prop :=
  ∀ (s : State) (r : Reading), ∃ (t : State) (d : Int), exec (.delta r) s = .next t ∧ t.response = .delta d ∧
    t.outputs.delta = BitVec.ofInt (Config.BITS + 1) d ∧ t.outputs.delta.toInt = d ∧
    -(2 ^ Config.BITS - 1) ≤ d ∧ d ≤ 2 ^ Config.BITS - 1 ∧
    t.outputs.delta ≠ BitVec.ofNat (Config.BITS + 1) (2 ^ Config.BITS)

/-- R50 and the codes of R77: `present` is 0 and `pos` is 0 for absent; else `present` is 1 and `pos` is the code of the
position at the index of the first maximum, four times the position. -/
def Obligations.PositionPortsCarryResult : Prop :=
  ∀ (s : State) (m : LightMap Config.SW), ∃ t, exec (.estimate m) s = .next t ∧
    ((∀ j : Fin 8, m[j].toNat < Config.THRESHOLD.toNat) → t.response = .line none ∧
      t.outputs.present = false ∧ t.outputs.pos = 0b0000#4) ∧
    (∀ i : Fin 8, Config.THRESHOLD.toNat ≤ m[i].toNat → (∀ j : Fin 8, m[j].toNat ≤ m[i].toNat) →
      (∀ j : Fin 8, j < i → m[j].toNat < m[i].toNat) →
      t.outputs.present = true ∧
      t.outputs.pos = (#v[0x4#4, 0x3#4, 0x2#4, 0x0#4, 0x0#4, 0xE#4, 0xD#4, 0xC#4] : Vector (BitVec 4) 8)[i] ∧
      t.response = .line (some t.outputs.pos.toInt) ∧
      (t.outputs.pos.toInt : Rat) / 4 =
        (#v[1, 3 / 4, 1 / 2, 0, 0, -1 / 2, -3 / 4, -1] : Vector Rat 8)[i])

/-- The ports a cycle does not select, all three of them in a NOP and in a reset cycle, are free values of that cycle, drawn
anew each time (the model's choice of form, log 4; 30_encoding.md section 4, R51 and decision D11; 70_reset_and_hazards.md
section 1, R107). Nothing is said of which values. -/
def Obligations.UnselectedPortsAreFree : Prop :=
  (∀ s : State, ∃ t, exec .nop s = .next t ∧ t.draws = s.draws + 1 ∧ t.outputs =
    { delta := Config.freeDelta t.draws, present := Config.freePresent t.draws, pos := Config.freePos t.draws }) ∧
  (∀ (s : State) (r : Reading), ∃ t, exec (.delta r) s = .next t ∧ t.draws = s.draws + 1 ∧
    t.outputs.present = Config.freePresent t.draws ∧ t.outputs.pos = Config.freePos t.draws) ∧
  (∀ (s : State) (m : LightMap Config.SW), ∃ t, exec (.estimate m) s = .next t ∧ t.draws = s.draws + 1 ∧
    t.outputs.delta = Config.freeDelta t.draws) ∧
  (∀ s : State, s.sampledInputs.rst = true → ∃ t, step s = .next t ∧ t.draws = s.draws + 1 ∧ t.outputs =
    { delta := Config.freeDelta t.draws, present := Config.freePresent t.draws, pos := Config.freePos t.draws })

/-- The operand port a request does not read has no effect on the cycle: states that agree on `last_steps`, on `rst` and
`REQ`, on `steps` where a DELTA reads it and on `light` where an ESTIMATE reads it, answer alike. 30_encoding.md section
1 (R43), 40_encoder_delta.md section 3 (R72), 41_line_position.md section 3 (R80). -/
def Obligations.UnreadPortsHaveNoEffect : Prop :=
  ∀ s s' t t' : State, s.lastSteps = s'.lastSteps →
    s.sampledInputs.rst = s'.sampledInputs.rst → s.sampledInputs.req = s'.sampledInputs.req →
    (deltaCycle s.sampledInputs = true → s.sampledInputs.steps = s'.sampledInputs.steps) →
    (estimateCycle s.sampledInputs = true → s.sampledInputs.light = s'.sampledInputs.light) →
    step s = .next t → step s' = .next t' →
    t.lastSteps = t'.lastSteps ∧ t.response = t'.response

/-! ### The tracker's laws, for every width: 40_encoder_delta.md -/

/-- R59: a wrap is reported exactly when bit (BITS − 1) of the two readings differs, that is when one of the readings is in the upper half and the other is not; so it is reported
on every true wrap of less than H steps and on every move across the midpoint. -/
def Obligations.WrapReportedWhenHalvesDiffer : Prop :=
  ∀ bits : Nat, 1 ≤ bits →
    (∀ l s : BitVec bits, wrapDetected l s = true ↔ s.getLsbD (bits - 1) ≠ l.getLsbD (bits - 1)) ∧
    (∀ l s : BitVec bits, wrapDetected l s = true ↔ ¬(halfRange bits ≤ zext s ↔ halfRange bits ≤ zext l)) ∧
    (∀ (l : BitVec bits) (m : Int), withinHalfRange bits m → (zext l + m < 0 ∨ modulus bits ≤ zext l + m) →
      wrapDetected l (counterAfter l m) = true) ∧
    (∀ (l : BitVec bits) (m : Int), withinHalfRange bits m → crossesMidpoint l m →
      wrapDetected l (counterAfter l m) = true)

/-- The closed form of R57, with the range of each of its three cases (the spec's own derivation, 40_encoder_delta.md
section 3). -/
def Obligations.DeltaClosedForm : Prop :=
  ∀ (bits : Nat) (l s : BitVec bits), 1 ≤ bits →
    ((topBit s = topBit l) → trackerDelta l s = zext s - zext l ∧
      -(halfRange bits - 1) ≤ trackerDelta l s ∧ trackerDelta l s ≤ halfRange bits - 1) ∧
    (halfRange bits ≤ zext s → zext l < halfRange bits → trackerDelta l s = zext s - zext l - modulus bits ∧
      -(modulus bits - 1) ≤ trackerDelta l s ∧ trackerDelta l s ≤ -1) ∧
    (halfRange bits ≤ zext l → zext s < halfRange bits → trackerDelta l s = zext s - zext l + modulus bits ∧
      1 ≤ trackerDelta l s ∧ trackerDelta l s ≤ modulus bits - 1)

/-- Every result lies in −(N − 1) .. N − 1 and so on the port, whose code for −N it never is (the spec's derivation R62,
40_encoder_delta.md section 3). -/
def Obligations.DeltaFitsItsPort : Prop :=
  ∀ (bits : Nat) (l s : BitVec bits), 1 ≤ bits →
    -(modulus bits - 1) ≤ trackerDelta l s ∧ trackerDelta l s ≤ modulus bits - 1 ∧
    (deltaCode bits (trackerDelta l s)).toInt = trackerDelta l s ∧
    deltaCode bits (trackerDelta l s) ≠ deltaCode bits (-modulus bits)

/-- The result is congruent to s − l modulo N, and the low BITS bits of its code are the modular difference (the spec's
derivation R63, 40_encoder_delta.md section 3). -/
def Obligations.DeltaCongruentToDifference : Prop :=
  ∀ (bits : Nat) (l s : BitVec bits), 1 ≤ bits →
    (trackerDelta l s - (zext s - zext l)) % modulus bits = 0 ∧
    (deltaCode bits (trackerDelta l s)).setWidth bits = s - l

/-- The result is 0 exactly when the readings are equal, and then the request leaves `last_steps` as it was (the spec's
derivation R64, 40_encoder_delta.md section 3). -/
def Obligations.ZeroDeltaIsNoMovement : Prop :=
  (∀ (bits : Nat) (l s : BitVec bits), 1 ≤ bits → (trackerDelta l s = 0 ↔ s = l)) ∧
  (∀ (s : State) (r : Reading), ∃ t, exec (.delta r) s = .next t ∧
    (t.response = .delta 0 ↔ t.lastSteps = s.lastSteps))

/-- Where the result is the ideal modular delta M, where it is M − N and where M + N (the spec's derivation R65,
40_encoder_delta.md section 3). -/
def Obligations.DeltaAgainstIdeal : Prop :=
  ∀ (bits : Nat) (l s : BitVec bits), 1 ≤ bits →
    (trackerDelta l s = idealDelta l s ↔
      sameHalf l s ∨
      (halfRange bits ≤ zext s ∧ zext l < halfRange bits ∧ halfRange bits ≤ zext s - zext l) ∨
      (halfRange bits ≤ zext l ∧ zext s < halfRange bits ∧ halfRange bits + 1 ≤ zext l - zext s)) ∧
    (halfRange bits ≤ zext s → zext l < halfRange bits → zext s - zext l ≤ halfRange bits - 1 →
      trackerDelta l s = idealDelta l s - modulus bits) ∧
    (halfRange bits ≤ zext l → zext s < halfRange bits → zext l - zext s ≤ halfRange bits →
      trackerDelta l s = idealDelta l s + modulus bits)

/-- The ideal delta of a motion within the half-range constraint is the motion, and the low BITS bits of the response's
code always give the ideal delta back, so a host recovers every such motion (the spec's derivations R65 and R115 (a)). -/
def Obligations.LowBitsRecoverMotion : Prop :=
  ∀ bits : Nat, 1 ≤ bits →
    (∀ l s : BitVec bits, lowBitsDelta (deltaCode bits (trackerDelta l s)) = idealDelta l s) ∧
    (∀ (l : BitVec bits) (m : Int), withinHalfRange bits m → idealDelta l (counterAfter l m) = m ∧
      lowBitsDelta (deltaCode bits (trackerDelta l (counterAfter l m))) = m)

/-- A motion within the half-range constraint that does not cross the midpoint is answered exactly (40_encoder_delta.md
section 3, R67). -/
def Obligations.DeltaIsTrueMotion : Prop :=
  ∀ (bits : Nat) (l : BitVec bits) (m : Int), 1 ≤ bits → withinHalfRange bits m → ¬crossesMidpoint l m →
    trackerDelta l (counterAfter l m) = m

/-- A motion within the half-range constraint that crosses the midpoint without a wrap is answered off by one modulus,
the wrong way (40_encoder_delta.md section 3, R67; the algorithm is kept by decision D14). -/
def Obligations.MidpointCrossingIsOffByModulus : Prop :=
  ∀ (bits : Nat) (l : BitVec bits) (m : Int), 1 ≤ bits → withinHalfRange bits m → crossesMidpoint l m →
    (0 < m → trackerDelta l (counterAfter l m) = m - modulus bits) ∧
    (m < 0 → trackerDelta l (counterAfter l m) = m + modulus bits) ∧ m ≠ 0

/-- A host that takes a response of magnitude H or more for the midpoint anomaly recovers every motion within the
half-range constraint (70_reset_and_hazards.md section 3, R115 (b)). -/
def Obligations.MagnitudeRecoversMotion : Prop :=
  ∀ (bits : Nat) (l : BitVec bits) (m : Int), 1 ≤ bits → withinHalfRange bits m →
    magnitudeRecovery bits (trackerDelta l (counterAfter l m)) = m

/-- The correction always opposes the sign of the raw difference (40_encoder_delta.md section 3, R70 (2)). -/
def Obligations.CorrectionOpposesRawSign : Prop :=
  ∀ (bits : Nat) (l s : BitVec bits), 1 ≤ bits → wrapDetected l s = true →
    (0 < rawDelta l s ∧ trackerDelta l s = rawDelta l s - modulus bits) ∨
    (rawDelta l s < 0 ∧ trackerDelta l s = rawDelta l s + modulus bits)

/-- The smallest width, all four pairs (the spec's derivation R69, 40_encoder_delta.md section 3). -/
def Obligations.OneBitTracker : Prop :=
  trackerDelta 0#1 0#1 = 0 ∧ trackerDelta 1#1 1#1 = 0 ∧ trackerDelta 0#1 1#1 = -1 ∧ trackerDelta 1#1 0#1 = 1 ∧
  ∀ m, withinHalfRange 1 m → m = 0

/-- The document's tracker properties at 16 and at 10 bits (95_test_vectors.md section 1, S1 to S8). -/
def Obligations.DocumentedPolls : Prop :=
  trackerDelta 0#16 0#16 = 0 ∧ trackerDelta 6#16 6#16 = 0 ∧ trackerDelta 0#10 0#10 = 0 ∧ trackerDelta 0#16 1#16 = 1 ∧ trackerDelta 1#16 11#16 = 10 ∧
  trackerDelta 11#16 6#16 = -5 ∧ trackerDelta 65535#16 0#16 = 1 ∧ trackerDelta 0#16 65535#16 = -1 ∧
  trackerDelta 0#10 1#10 = 1 ∧ trackerDelta 1#10 11#10 = 10 ∧ trackerDelta 11#10 6#10 = -5 ∧
  trackerDelta 1023#10 0#10 = 1 ∧ trackerDelta 0#10 1023#10 = -1

/-- DELTA consumes the interval it reports: asked again with the same reading it answers 0 (20_memory.md section 3, R35;
70_reset_and_hazards.md section 3, R117). -/
def Obligations.RepeatedPollAnswersZero : Prop :=
  ∀ (s : State) (r : Reading), ∃ t u, exec (.delta r) s = .next t ∧ exec (.delta r) t = .next u ∧
    u.response = .delta 0 ∧ u.lastSteps = r

/-- After the priming poll, which reads the counter whatever `last_steps` was, the next response is the true motion under
the conditions of R66 and R67 (70_reset_and_hazards.md section 2, R112). -/
def Obligations.PrimedPollReportsMotion : Prop :=
  ∀ (s : State) (c : Reading) (m : Int), withinHalfRange Config.BITS m → ¬crossesMidpoint c m →
    ∃ t u, exec (.delta c) s = .next t ∧ exec (.delta (counterAfter c m)) t = .next u ∧ u.response = .delta m

/-! ### The estimator's laws, for every width and threshold: 41_line_position.md -/

/-- R76: absent exactly when every sample is below the threshold, which lies in 1 .. 2^SW − 1, so that the all-zero map is
absent. -/
def Obligations.AbsentWhenAllBelow : Prop :=
  (∀ (sw : Nat) (threshold : BitVec sw) (m : LightMap sw),
    lineEstimate threshold m = none ↔ ∀ i : Fin 8, m[i].toNat < threshold.toNat) ∧
  (1 ≤ Config.THRESHOLD.toNat ∧ Config.THRESHOLD.toNat ≤ 2 ^ Config.SW - 1) ∧
  (∀ s : State, ∃ t, exec (.estimate (Vector.replicate 8 0)) s = .next t ∧ t.response = .line none)

/-- The response depends on the map only through the index of the first maximum and the side of the threshold it lies on;
it is absent or one of seven positions (the spec's derivation R82, 41_line_position.md section 3). -/
def Obligations.EstimateIsNoCentroid : Prop :=
  (∀ (sw sw' : Nat) (threshold : BitVec sw) (threshold' : BitVec sw') (m : LightMap sw) (m' : LightMap sw') (i : Fin 8),
    (∀ j : Fin 8, m[j].toNat ≤ m[i].toNat) → (∀ j : Fin 8, j < i → m[j].toNat < m[i].toNat) →
    (∀ j : Fin 8, m'[j].toNat ≤ m'[i].toNat) → (∀ j : Fin 8, j < i → m'[j].toNat < m'[i].toNat) →
    (threshold.toNat ≤ m[i].toNat ↔ threshold'.toNat ≤ m'[i].toNat) →
    lineEstimate threshold m = lineEstimate threshold' m') ∧
  (∀ (sw : Nat) (threshold : BitVec sw) (m : LightMap sw),
    lineEstimate threshold m ∈ [none, some 4, some 3, some 2, some 0, some (-2), some (-3), some (-4)])

/-- The rows of R81, for every width and threshold (the spec's derivation, 41_line_position.md section 3): a lone sample at
or above the threshold is located; so is the one largest of several; a uniform map is at index 0 or absent; a maximum shared
by any two indices goes to the lower of them, where no index before it has it, and so by index 0 and 7 to index 0; a maximum
equal to the threshold is a detection and one below it is not; the all-zero map is absent for a threshold of at least 1. -/
def Obligations.EstimateCornerCases : Prop :=
  (∀ (sw : Nat) (threshold : BitVec sw) (m : LightMap sw) (i : Fin 8), threshold.toNat ≤ m[i].toNat →
    (∀ j : Fin 8, j ≠ i → m[j].toNat < threshold.toNat) →
    lineEstimate threshold m = some ((#v[4, 3, 2, 0, 0, -2, -3, -4] : Vector Int 8)[i])) ∧
  (∀ (sw : Nat) (threshold : BitVec sw) (m : LightMap sw) (i : Fin 8), threshold.toNat ≤ m[i].toNat →
    (∀ j : Fin 8, j ≠ i → m[j].toNat < m[i].toNat) →
    lineEstimate threshold m = some ((#v[4, 3, 2, 0, 0, -2, -3, -4] : Vector Int 8)[i])) ∧
  (∀ (sw : Nat) (threshold v : BitVec sw), lineEstimate threshold (Vector.replicate 8 v) =
    if v.toNat < threshold.toNat then none else some 4) ∧
  (∀ (sw : Nat) (threshold : BitVec sw) (m : LightMap sw) (i k : Fin 8), i < k → threshold.toNat ≤ m[i].toNat →
    m[i] = m[k] → (∀ j : Fin 8, m[j].toNat ≤ m[i].toNat) → (∀ j : Fin 8, j < i → m[j] ≠ m[i]) →
    lineEstimate threshold m = some ((#v[4, 3, 2, 0, 0, -2, -3, -4] : Vector Int 8)[i])) ∧
  (∀ (sw : Nat) (threshold : BitVec sw) (m : LightMap sw), threshold.toNat ≤ m[0].toNat → m[0] = m[7] →
    (∀ j : Fin 8, m[j].toNat ≤ m[0].toNat) → lineEstimate threshold m = some 4) ∧
  (∀ (sw : Nat) (threshold : BitVec sw) (m : LightMap sw) (i : Fin 8), (∀ j : Fin 8, m[j].toNat ≤ m[i].toNat) →
    (m[i].toNat = threshold.toNat → (lineEstimate threshold m).isSome = true) ∧
    (m[i].toNat + 1 = threshold.toNat → lineEstimate threshold m = none)) ∧
  (∀ (sw : Nat) (threshold : BitVec sw), 1 ≤ threshold.toNat →
    lineEstimate threshold (Vector.replicate 8 0) = none)

/-- With one-bit samples the estimator is a priority encoder: the table's entry at the lowest set bit, or absent
(95_test_vectors.md section 2.7). -/
def Obligations.OneBitEstimatorIsPriorityEncoder : Prop :=
  ∀ m : LightMap 1,
    ((∀ i : Fin 8, m[i] = 0#1) → lineEstimate 1#1 m = none) ∧
    (∀ i : Fin 8, m[i] = 1#1 → (∀ j : Fin 8, j < i → m[j] = 0#1) →
      lineEstimate 1#1 m = some ((#v[4, 3, 2, 0, 0, -2, -3, -4] : Vector Int 8)[i]))

/-! ### Runs, from every state and over every sequence of cycles -/

/-- The register after a run is the reading of the last DELTA, or 0 where a reset came after it, or what it was: the run
never stops and nothing else writes the register (10_state.md section 1, R15). -/
def Obligations.RegisterHoldsLastReading : Prop :=
  ∀ (s : State) (ps : List InputPorts), ∃ t, runEnd s ps = .next t ∧
    t.lastSteps = registerAfter s.lastSteps ps ∧ t.pending = []

/-- Removing any or all idle cycles from a run changes no other response and not the register at the end (the spec's
derivation R88, 42_no_operation.md section 1). -/
def Obligations.IdleCyclesAreInvisible : Prop :=
  ∀ (s : State) (ps qs : List InputPorts), ps.filter (fun p => !idleCycle p) = qs.filter (fun p => !idleCycle p) →
    deltasOf (runResponses s ps) = deltasOf (runResponses s qs) ∧
    linesOf (runResponses s ps) = linesOf (runResponses s qs) ∧
    ∃ t u, runEnd s ps = .next t ∧ runEnd s qs = .next u ∧ t.lastSteps = u.lastSteps

/-- Removing idle and ESTIMATE cycles from a run changes no DELTA response and not the register at the end
(41_line_position.md section 3, R79; 42_no_operation.md section 1, R88). -/
def Obligations.EstimatesAreInvisibleToTracker : Prop :=
  ∀ (s : State) (ps : List InputPorts),
    deltasOf (runResponses s ps) =
      deltasOf (runResponses s (ps.filter fun p => !(idleCycle p || estimateCycle p))) ∧
    ∃ t u, runEnd s ps = .next t ∧
      runEnd s (ps.filter fun p => !(idleCycle p || estimateCycle p)) = .next u ∧ t.lastSteps = u.lastSteps

/-- The estimator's responses in a run do not depend on the register it starts from nor on the DELTA and idle cycles among
them (41_line_position.md section 3, R80). -/
def Obligations.EstimatesDependOnMapsOnly : Prop :=
  ∀ (s s' : State) (ps : List InputPorts),
    linesOf (runResponses s ps) = linesOf (runResponses s' (ps.filter estimateCycle)) ∧
    linesOf (runResponses s ps) =
      (ps.filter estimateCycle).map fun p => lineEstimate Config.THRESHOLD (unpackLight p.light)

/-- Over any run without a reset the deltas sum to the change of the register, modulo N (the spec's derivation R68,
40_encoder_delta.md section 3). -/
def Obligations.DeltasSumModulo : Prop :=
  ∀ (s : State) (ps : List InputPorts), (∀ p ∈ ps, p.rst = false) →
    ∃ t, runEnd s ps = .next t ∧
      ((deltasOf (runResponses s ps)).sum - (zext t.lastSteps - zext s.lastSteps)) % modulus Config.BITS = 0

/-- Where every motion between polls keeps to the half-range constraint and off the midpoint, the deltas sum to the total
motion, with no drift across wraps (the spec's derivation R68, 40_encoder_delta.md section 3). -/
def Obligations.TrustworthyDeltasSumExactly : Prop :=
  ∀ (s : State) (ms : List Int), motionsTrustworthy s.lastSteps ms →
    deltasOf (runResponses s (pollsAfterMotions s.lastSteps ms)) = ms ∧
    ∃ t, runEnd s (pollsAfterMotions s.lastSteps ms) = .next t ∧ t.lastSteps = counterAfter s.lastSteps ms.sum

/-! ### The invariant -/

/-- Every step, from every state that meets it, keeps the invariant that the response is one the block can give (R62, R82)
and that the selected ports decode to it (30_encoding.md section 4). -/
def Obligations.StepKeepsResponsePossible : Prop :=
  ∀ s t : State, responsePossible s.response → step s = .next t →
    responsePossible t.response ∧
    (∀ d, t.response = .delta d → t.outputs.delta.toInt = d) ∧
    (∀ q, t.response = .line (some q) → t.outputs.present = true ∧ t.outputs.pos.toInt = q)

/-- The state after reset meets the invariant of `StepKeepsResponsePossible`. -/
def Obligations.ResetResponsePossible : Prop := responsePossible State.reset.response

/-! ### The build and the notation of listings -/

/-- The build's parameters are legal, and every legal triple of parameters is one the constants could stand for
(00_scope.md section 3, R5 and R6; log 1). -/
def Obligations.BuildIsLegal : Prop :=
  buildWellFormed Config.BITS Config.SW Config.THRESHOLD.toNat = true ∧
  ∀ bits sw threshold : Nat, buildWellFormed bits sw threshold = true →
    ∃ bitsPick swPick pick : Nat, bits = bitsPick + 1 ∧ sw = swPick + 1 ∧
      (Config.thresholdOf sw pick).toNat = threshold

/-- Lines whose numbers fit drive exactly what they say; `SYNC` and `POLL` drive what a `DELTA` drives, and RESET raises
`rst` (30_encoding.md section 6, R55 and R56). That a blank line drives nothing, no cycle at all, is the model's choice
(log 15): R55 admits an empty line and does not say whether it is a cycle. -/
def Obligations.ListingLinesDriveTheirRequests : Prop :=
  ∀ (c : Reading),
    (∀ n : Nat, readingFits Config.BITS n = true → ∃ p, (Line.delta n).inputs c = some p ∧ p.rst = false ∧
      p.req = 0b10#2 ∧ p.steps.toNat = n ∧ (Line.sync n).inputs c = some p) ∧
    (Line.poll.inputs c = (Line.delta c.toNat).inputs c) ∧
    (∀ ns : Vector Nat 8, (Line.estimate ns).wellFormed Config.BITS Config.SW = true →
      ∃ p, (Line.estimate ns).inputs c = some p ∧ p.rst = false ∧ p.req = 0b11#2 ∧
        ∀ i : Fin 8, (unpackLight p.light)[i].toNat = ns[i]) ∧
    (∃ p, Line.nop.inputs c = some p ∧ p.rst = false ∧ p.req = 0b00#2) ∧
    (∃ p, Line.reset.inputs c = some p ∧ p.rst = true) ∧ Line.blank.inputs c = none
end

