-- ==== Sys2Proof/Laws/Config.lean ====
section
/-!
SUPPORT. The build's parameters lie in the domains of 00_scope.md R5 and R6, and no legal value is left out.
-/

namespace Sys2Proof.Config

theorem BITS_pos : 1 ≤ BITS := Nat.le_add_left 1 bitsPick

theorem SW_pos : 1 ≤ SW := Nat.le_add_left 1 swPick

theorem one_lt_two_pow_of_pos {sw : Nat} (h : 1 ≤ sw) : 1 < 2 ^ sw := Nat.one_lt_two_pow (by omega)

theorem thresholdOf_toNat {sw : Nat} (h : 1 ≤ sw) (pick : Nat) :
    (thresholdOf sw pick).toNat = pick % (2 ^ sw - 1) + 1 := by
  have h2 := one_lt_two_pow_of_pos h
  have hm : pick % (2 ^ sw - 1) < 2 ^ sw - 1 := Nat.mod_lt _ (by omega)
  rw [thresholdOf, BitVec.toNat_ofNat, Nat.mod_eq_of_lt (by omega)]

theorem THRESHOLD_pos : 1 ≤ THRESHOLD.toNat := by
  rw [THRESHOLD, thresholdOf_toNat SW_pos]
  exact Nat.le_add_left 1 _

theorem thresholdOf_covers {sw t : Nat} (h : 1 ≤ sw) (h1 : 1 ≤ t) (h2 : t ≤ 2 ^ sw - 1) :
    (thresholdOf sw (t - 1)).toNat = t := by
  rw [thresholdOf_toNat h, Nat.mod_eq_of_lt (by omega)]
  omega

end Sys2Proof.Config
end

