-- ==== Sys2Proof/Laws/Decode.lean ====
section
/-!
SUPPORT. What the decoder and the light bus do, bit by bit.
-/

namespace Sys2Proof

@[simp] theorem decode_nop (steps : Reading) (light : LightBus Config.SW) :
    decode 0b00#2 steps light = .nop := rfl

@[simp] theorem decode_nop_second (steps : Reading) (light : LightBus Config.SW) :
    decode 0b01#2 steps light = .nop := rfl

@[simp] theorem decode_delta (steps : Reading) (light : LightBus Config.SW) :
    decode 0b10#2 steps light = .delta steps := rfl

@[simp] theorem decode_estimate (steps : Reading) (light : LightBus Config.SW) :
    decode 0b11#2 steps light = .estimate (unpackLight light) := rfl

/-- The words of `REQ` are four. -/
theorem reqWord_cases (w : ReqWord) : w = 0b00#2 ∨ w = 0b01#2 ∨ w = 0b10#2 ∨ w = 0b11#2 := by
  revert w
  decide

theorem request_nop {p : InputPorts} (h : p.req = 0b00#2) : p.request = .nop := by
  rw [InputPorts.request, h, decode_nop]

theorem request_nop_second {p : InputPorts} (h : p.req = 0b01#2) : p.request = .nop := by
  rw [InputPorts.request, h, decode_nop_second]

theorem request_delta {p : InputPorts} (h : p.req = 0b10#2) : p.request = .delta p.steps := by
  rw [InputPorts.request, h, decode_delta]

theorem request_estimate {p : InputPorts} (h : p.req = 0b11#2) : p.request = .estimate (unpackLight p.light) := by
  rw [InputPorts.request, h, decode_estimate]

variable {sw : Nat}

theorem sampleAt_getLsbD (bus : LightBus sw) (i j : Nat) (h : j < sw) :
    (sampleAt bus i).getLsbD j = bus.getLsbD (sw * i + j) := by
  simp [sampleAt, h]

theorem unpackLight_get (bus : LightBus sw) (i : Fin 8) : (unpackLight bus)[i] = sampleAt bus i := by
  revert i
  simp [Fin.forall_fin_succ, unpackLight]

theorem placeSample_getLsbD (v : BitVec sw) (i n : Nat) :
    (placeSample v i).getLsbD n = (decide (n < 8 * sw) && (!decide (n < sw * i) && v.getLsbD (n - sw * i))) := by
  rw [placeSample, BitVec.getLsbD_shiftLeft, BitVec.getLsbD_setWidth]
  by_cases h : n < 8 * sw
  · have : n - sw * i < 8 * sw := by omega
    simp [h, this]
  · simp [h]

/-- At the place of sample i on the bus, the sample placed at k shows if k = i, and zeros else. -/
theorem placeSample_at (m : LightMap sw) (k i : Fin 8) (j : Nat) (h : j < sw) :
    (placeSample m[k] k).getLsbD (sw * i + j) = (decide (k = i) && m[i].getLsbD j) := by
  have inside : sw * i.val + j < 8 * sw := by
    have := Nat.mul_le_mul_left sw (show i.val + 1 ≤ 8 by omega)
    rw [Nat.mul_add] at this
    omega
  rw [placeSample_getLsbD]
  rcases lt_trichotomy k.val i.val with hk | hk | hk
  · have := Nat.mul_le_mul_left sw (show k.val + 1 ≤ i.val by omega)
    rw [Nat.mul_add] at this
    have hz : m[k].getLsbD (sw * i.val + j - sw * k.val) = false := BitVec.getLsbD_of_ge _ _ (by omega)
    simp only [hz, Bool.and_false, Fin.ext_iff, hk.ne, decide_false, Bool.false_and]
  · obtain rfl : k = i := Fin.ext hk
    simp [inside]
  · have := Nat.mul_le_mul_left sw (show i.val + 1 ≤ k.val by omega)
    rw [Nat.mul_add] at this
    have hlt : sw * i.val + j < sw * k.val := by omega
    simp only [hlt, decide_true, Bool.not_true, Bool.false_and, Bool.and_false, Fin.ext_iff, hk.ne', decide_false]

theorem or_of_places (i : Fin 8) (b : Bool) :
    (decide (0 = i) && b || decide (1 = i) && b || decide (2 = i) && b || decide (3 = i) && b ||
      decide (4 = i) && b || decide (5 = i) && b || decide (6 = i) && b || decide (7 = i) && b) = b := by
  revert i b
  decide

/-- The bits of the bus at a sample's place are the sample's. -/
theorem packLight_getLsbD (m : LightMap sw) (i : Fin 8) (j : Nat) (h : j < sw) :
    (packLight m).getLsbD (sw * i + j) = m[i].getLsbD j := by
  rw [← or_of_places i (m[i].getLsbD j), ← placeSample_at m 0 i j h, ← placeSample_at m 1 i j h,
    ← placeSample_at m 2 i j h, ← placeSample_at m 3 i j h, ← placeSample_at m 4 i j h,
    ← placeSample_at m 5 i j h, ← placeSample_at m 6 i j h, ← placeSample_at m 7 i j h]
  simp only [packLight, BitVec.getLsbD_or]
  rfl

theorem unpackLight_packLight (m : LightMap sw) : unpackLight (packLight m) = m := by
  apply Vector.ext
  intro i hi
  have hu := unpackLight_get (packLight m) ⟨i, hi⟩
  simp only [Fin.getElem_fin] at hu
  rw [hu]
  apply BitVec.eq_of_getLsbD_eq
  intro j hj
  rw [sampleAt_getLsbD _ _ _ hj]
  exact packLight_getLsbD m ⟨i, hi⟩ j hj

theorem packLight_unpackLight (bus : LightBus sw) : packLight (unpackLight bus) = bus := by
  apply BitVec.eq_of_getLsbD_eq
  intro n hn
  have hsw : 0 < sw := by omega
  have hi : n / sw < 8 := Nat.div_lt_of_lt_mul (by omega)
  have hj : n % sw < sw := Nat.mod_lt _ hsw
  have hp := packLight_getLsbD (unpackLight bus) ⟨n / sw, hi⟩ (n % sw) hj
  rw [unpackLight_get, sampleAt_getLsbD _ _ _ hj] at hp
  simpa [Nat.div_add_mod] using hp

end Sys2Proof
end

