-- ==== Sys2Proof/Laws/State.lean ====
section
/-!
SUPPORT. What each operation on the state does to each field.
-/

namespace Sys2Proof.Machine

variable (s : State) (r : Response) (v : Reading) (p : InputPorts)

@[simp] theorem setLastSteps_lastSteps : (s.setLastSteps v).lastSteps = v := rfl
@[simp] theorem setLastSteps_response : (s.setLastSteps v).response = s.response := rfl
@[simp] theorem setLastSteps_pending : (s.setLastSteps v).pending = s.pending := rfl
@[simp] theorem setLastSteps_draws : (s.setLastSteps v).draws = s.draws := rfl

@[simp] theorem respond_lastSteps : (s.respond r).lastSteps = s.lastSteps := rfl
@[simp] theorem respond_response : (s.respond r).response = r := rfl
@[simp] theorem respond_pending : (s.respond r).pending = s.pending := rfl
@[simp] theorem respond_draws : (s.respond r).draws = s.draws + 1 := rfl

@[simp] theorem takeReset_lastSteps : s.takeReset.lastSteps = 0 := rfl
@[simp] theorem takeReset_response : s.takeReset.response = .none := rfl
@[simp] theorem takeReset_pending : s.takeReset.pending = s.pending := rfl
@[simp] theorem takeReset_draws : s.takeReset.draws = s.draws + 1 := rfl

@[simp] theorem consumeInputs_lastSteps : s.consumeInputs.lastSteps = s.lastSteps := rfl
@[simp] theorem consumeInputs_response : s.consumeInputs.response = s.response := rfl
@[simp] theorem consumeInputs_pending : s.consumeInputs.pending = s.pending.tail := rfl
@[simp] theorem consumeInputs_draws : s.consumeInputs.draws = s.draws := rfl

@[simp] theorem drive_lastSteps : (s.drive p).lastSteps = s.lastSteps := rfl
@[simp] theorem drive_pending : (s.drive p).pending = p :: s.pending := rfl

theorem sampledInputs_of_pending {p : InputPorts} {ps : List InputPorts} (h : s.pending = p :: ps) :
    s.sampledInputs = p := by rw [State.sampledInputs, h]

theorem sampledInputs_of_empty (h : s.pending = []) : s.sampledInputs = freeInputs s.draws := by
  rw [State.sampledInputs, h]

@[simp] theorem sampledInputs_drive : (s.drive p).sampledInputs = p := rfl

@[simp] theorem consumeInputs_drive : (s.drive p).consumeInputs = s := rfl

/-- A cycle without a response leaves all three result ports free. -/
@[simp] theorem outputs_respond_none : (s.respond .none).outputs =
    { delta := Config.freeDelta (s.draws + 1), present := Config.freePresent (s.draws + 1),
      pos := Config.freePos (s.draws + 1) } := rfl

/-- A tracker result selects the `delta` port alone. -/
@[simp] theorem outputs_respond_delta (d : Int) : (s.respond (.delta d)).outputs =
    { delta := deltaCode Config.BITS d, present := Config.freePresent (s.draws + 1),
      pos := Config.freePos (s.draws + 1) } := rfl

/-- An estimator result selects the ports `present` and `pos` alone. -/
@[simp] theorem outputs_respond_line (q : Option Int) : (s.respond (.line q)).outputs =
    { delta := Config.freeDelta (s.draws + 1), present := q.isSome, pos := posCode q } := rfl

/-- A reset cycle leaves all three result ports free. -/
@[simp] theorem outputs_takeReset : s.takeReset.outputs =
    { delta := Config.freeDelta (s.draws + 1), present := Config.freePresent (s.draws + 1),
      pos := Config.freePos (s.draws + 1) } := rfl

end Sys2Proof.Machine
end

