-- ==== Sys2Proof/Laws/Estimator.lean ====
section
/-!
SUPPORT. The scan finds the first maximum of the map.
-/

namespace Sys2Proof.Machine

variable {sw : Nat}

/-- What the scan has found once it has looked at the samples up to index k. -/
structure ScannedTo (m : LightMap sw) (best : Fin 8 × BitVec sw) (k : Nat) : Prop where
  sample : best.2 = m[best.1]
  index : best.1.val ≤ k
  greatest : ∀ j : Fin 8, j.val ≤ k → m[j].toNat ≤ best.2.toNat
  first : ∀ j : Fin 8, j < best.1 → m[j].toNat < best.2.toNat

theorem scannedTo_zero (m : LightMap sw) : ScannedTo m (0, m[0]) 0 where
  sample := rfl
  index := le_rfl
  greatest j hj := by
    obtain rfl : j = 0 := Fin.ext (by simpa using hj)
    exact le_rfl
  first j hj := absurd hj (Fin.not_lt_zero j)

/-- One more sample. -/
theorem scanSample_scannedTo {m : LightMap sw} {best : Fin 8 × BitVec sw} {k : Nat} (i : Fin 8) (hi : i.val = k + 1)
    (h : ScannedTo m best k) : ScannedTo m (scanSample m best i) (k + 1) := by
  unfold scanSample
  split
  case isTrue hgt =>
    have hgt : best.2.toNat < m[i].toNat := hgt
    refine ⟨rfl, by simp [hi], fun j hj => ?_, fun j hj => ?_⟩
    · by_cases hjk : j.val ≤ k
      · exact (h.greatest j hjk).trans hgt.le
      · obtain rfl : j = i := Fin.ext (by omega)
        exact le_rfl
    · exact lt_of_le_of_lt (h.greatest j (by have : j.val < i.val := hj; omega)) hgt
  case isFalse hle =>
    have hle : m[i].toNat ≤ best.2.toNat := not_lt.mp hle
    refine ⟨h.sample, by have := h.index; omega, fun j hj => ?_, h.first⟩
    by_cases hjk : j.val ≤ k
    · exact h.greatest j hjk
    · obtain rfl : j = i := Fin.ext (by omega)
      exact hle

theorem firstMax_scannedTo (m : LightMap sw) : ScannedTo m (firstMax m) 7 :=
  scanSample_scannedTo 7 rfl <| scanSample_scannedTo 6 rfl <| scanSample_scannedTo 5 rfl <|
    scanSample_scannedTo 4 rfl <| scanSample_scannedTo 3 rfl <| scanSample_scannedTo 2 rfl <|
      scanSample_scannedTo 1 rfl <| scannedTo_zero m

/-- The index the scan finds holds a maximum. -/
theorem le_firstMax (m : LightMap sw) (j : Fin 8) : m[j].toNat ≤ m[(firstMax m).1].toNat := by
  have h := firstMax_scannedTo m
  rw [← h.sample]
  exact h.greatest j (by omega)

/-- No earlier index reaches it. -/
theorem lt_firstMax (m : LightMap sw) (j : Fin 8) (hj : j < (firstMax m).1) :
    m[j].toNat < m[(firstMax m).1].toNat := by
  have h := firstMax_scannedTo m
  rw [← h.sample]
  exact h.first j hj

/-- The first maximum is the only index of its kind. -/
theorem firstMax_unique (m : LightMap sw) (i : Fin 8) (hmax : ∀ j : Fin 8, m[j].toNat ≤ m[i].toNat)
    (hfirst : ∀ j : Fin 8, j < i → m[j].toNat < m[i].toNat) : (firstMax m).1 = i := by
  rcases lt_trichotomy (firstMax m).1 i with h | h | h
  · have h1 := hfirst _ h
    have h2 := le_firstMax m i
    omega
  · exact h
  · have h1 := lt_firstMax m i h
    have h2 := hmax (firstMax m).1
    omega

/-- The estimator's result, by the sample at the first maximum. -/
theorem lineEstimate_eq (threshold : BitVec sw) (m : LightMap sw) :
    lineEstimate threshold m =
      if m[(firstMax m).1].toNat < threshold.toNat then none else some posQ[(firstMax m).1] := by
  have h := (firstMax_scannedTo m).sample
  simp only [lineEstimate, BitVec.lt_def, h]

end Sys2Proof.Machine
end

