-- ==== Sys2Proof/Laws/PerInstr.lean ====
section
/-!
SUPPORT. Statements made once per request, as syntax.
-/

namespace Sys2Proof.Laws.SelectsItsRow

/-- The word that presents a request selects the row of the opcode map with the request's mnemonic, and no other
(30_encoding.md R46). -/
def Statement (i : Instr) : Prop :=
  ∀ idle : InputPorts, (opcodeMap.filter fun r => r.selects (encode i idle).req).map (·.mnemonic) = [i.mnemonic]

theorem nop : Statement .nop := fun _ => by
  show (opcodeMap.filter fun r => r.selects 0b00#2).map (·.mnemonic) = ["NOP"]
  decide

theorem delta (steps : Reading) : Statement (.delta steps) := fun _ => by
  show (opcodeMap.filter fun r => r.selects 0b10#2).map (·.mnemonic) = ["DELTA"]
  decide

theorem estimate (light : LightMap Config.SW) : Statement (.estimate light) := fun _ => by
  show (opcodeMap.filter fun r => r.selects 0b11#2).map (·.mnemonic) = ["ESTIMATE"]
  decide

end Sys2Proof.Laws.SelectsItsRow
end

