-- ==== Sys2Proof/Laws/Tracker.lean ====
section
/-!
SUPPORT. What the tracker's arithmetic says on integers: when the top bit is set, and the three cases of a poll.
-/

namespace Sys2Proof.Machine

variable {bits : Nat}

theorem zext_nonneg (v : BitVec bits) : 0 ≤ zext v := Int.natCast_nonneg _

theorem zext_lt_modulus (v : BitVec bits) : zext v < modulus bits := by
  have := v.isLt
  simp only [zext, modulus]
  exact_mod_cast this

theorem modulus_eq_twice_half (h : 1 ≤ bits) : modulus bits = 2 * 2 ^ (bits - 1) := by
  rw [modulus, show bits = bits - 1 + 1 by omega, pow_succ]
  simp [mul_comm]

theorem topBit_iff (v : BitVec bits) : topBit v = true ↔ (2 : Int) ^ (bits - 1) ≤ zext v := by
  rw [topBit, ← BitVec.msb_eq_getLsbD_last, BitVec.msb_eq_decide, decide_eq_true_iff, zext]
  exact_mod_cast Iff.rfl

theorem topBit_eq_iff (l s : BitVec bits) :
    topBit s = topBit l ↔ ((2 : Int) ^ (bits - 1) ≤ zext s ↔ (2 : Int) ^ (bits - 1) ≤ zext l) := by
  rw [← topBit_iff, ← topBit_iff, Bool.eq_iff_iff]

theorem lt_iff_zext_lt (l s : BitVec bits) : l < s ↔ zext l < zext s := by
  rw [BitVec.lt_def, zext, zext]
  exact_mod_cast Iff.rfl

/-- The three cases of a poll: no wrap reported, a backward wrap, a forward wrap. -/
theorem trackerDelta_cases (l s : BitVec bits) :
    (topBit s = topBit l ∧ trackerDelta l s = zext s - zext l) ∨
    (zext l < 2 ^ (bits - 1) ∧ 2 ^ (bits - 1) ≤ zext s ∧ trackerDelta l s = zext s - zext l - modulus bits) ∨
    (zext s < 2 ^ (bits - 1) ∧ 2 ^ (bits - 1) ≤ zext l ∧ trackerDelta l s = zext s - zext l + modulus bits) := by
  by_cases h : topBit s = topBit l
  · exact .inl ⟨h, by simp [trackerDelta, wrapDetected, h, rawDelta]⟩
  · have hw : wrapDetected l s = true := by simpa [wrapDetected] using h
    rw [topBit_eq_iff] at h
    refine .inr ?_
    rw [trackerDelta, if_pos hw, rawDelta, wrapCorrection]
    simp only [gt_iff_lt, lt_iff_zext_lt]
    by_cases hl : (2 : Int) ^ (bits - 1) ≤ zext l
    · have hs : zext s < 2 ^ (bits - 1) := by
        by_contra hc
        exact h (iff_of_true (not_lt.mp hc) hl)
      refine .inr ⟨hs, hl, ?_⟩
      rw [if_neg (by omega), if_pos (by omega)]
    · have hs : (2 : Int) ^ (bits - 1) ≤ zext s := by
        by_contra hc
        exact h (iff_of_false hc hl)
      refine .inl ⟨not_le.mp hl, hs, ?_⟩
      rw [if_pos (by omega)]
      omega

/-- Everything a DELTA does. -/
theorem execDelta_eq (r : Reading) (s : State) :
    execDelta r s = .next ((s.setLastSteps r).respond (.delta (trackerDelta s.lastSteps r))) := rfl

end Sys2Proof.Machine
end

