-- ==== Sys2Proof/Laws/Step.lean ====
section
/-!
SUPPORT. Everything a request and a cycle can do, said once.
-/

namespace Sys2Proof.Machine

@[simp] theorem exec_nop (s : State) : exec .nop s = .next (s.respond .none) := rfl

@[simp] theorem exec_delta (r : Reading) (s : State) :
    exec (.delta r) s = .next ((s.setLastSteps r).respond (.delta (trackerDelta s.lastSteps r))) := rfl

@[simp] theorem exec_estimate (m : LightMap Config.SW) (s : State) :
    exec (.estimate m) s = .next (s.respond (.line (lineEstimate Config.THRESHOLD m))) := rfl

theorem step_of_reset {s : State} (h : s.sampledInputs.rst = true) : step s = .next s.consumeInputs.takeReset := by
  rw [step, h]

theorem step_of_request {s : State} (h : s.sampledInputs.rst = false) :
    step s = exec s.sampledInputs.request s.consumeInputs := by
  rw [step, h]

/-- A cycle whose inputs are the head of the pending list. -/
theorem step_of_pending {s : State} {p : InputPorts} {ps : List InputPorts} (h : s.pending = p :: ps) :
    step s =
      if p.rst then .next s.consumeInputs.takeReset else exec p.request s.consumeInputs := by
  have hs := sampledInputs_of_pending s h
  cases hr : p.rst
  · rw [step_of_request (by rw [hs, hr]), hs]
    rfl
  · rw [step_of_reset (by rw [hs, hr])]
    rfl

/-- If a cycle answers t, it was a reset cycle or one of the three requests. -/
theorem step_cases {s t : State} (h : step s = .next t) :
    (s.sampledInputs.rst = true ∧ t = s.consumeInputs.takeReset) ∨
    (s.sampledInputs.rst = false ∧ s.sampledInputs.request = .nop ∧ t = s.consumeInputs.respond .none) ∨
    (∃ r, s.sampledInputs.rst = false ∧ s.sampledInputs.request = .delta r ∧
      t = (s.consumeInputs.setLastSteps r).respond (.delta (trackerDelta s.lastSteps r))) ∨
    (∃ m, s.sampledInputs.rst = false ∧ s.sampledInputs.request = .estimate m ∧
      t = s.consumeInputs.respond (.line (lineEstimate Config.THRESHOLD m))) := by
  cases hr : s.sampledInputs.rst
  · rw [step_of_request hr] at h
    cases hi : s.sampledInputs.request with
    | nop =>
      rw [hi, exec_nop, Host.Outcome.next.injEq] at h
      exact .inr (.inl ⟨rfl, rfl, h.symm⟩)
    | delta r =>
      rw [hi, exec_delta, Host.Outcome.next.injEq] at h
      exact .inr (.inr (.inl ⟨r, rfl, rfl, h.symm⟩))
    | estimate m =>
      rw [hi, exec_estimate, Host.Outcome.next.injEq] at h
      exact .inr (.inr (.inr ⟨m, rfl, rfl, h.symm⟩))
  · rw [step_of_reset hr, Host.Outcome.next.injEq] at h
    exact .inl ⟨rfl, h.symm⟩

end Sys2Proof.Machine
end

