-- ==== Sys2Proof/Laws/Run.lean ====
section
/-!
SUPPORT. Runs over a list of cycles, one cycle at a time: every run claim is an induction over these.
-/

namespace Sys2Proof.Safety

open Sys2Proof.Machine

theorem deltaCycle_of_delta {p : InputPorts} (hr : p.rst = false) (h : p.req = 0b10#2) : deltaCycle p = true := by
  rw [deltaCycle, hr, h]
  decide

theorem estimateCycle_of_estimate {p : InputPorts} (hr : p.rst = false) (h : p.req = 0b11#2) :
    estimateCycle p = true := by
  rw [estimateCycle, hr, h]
  decide

/-- What a cycle presents decides what it is. -/
theorem cycle_cases (p : InputPorts) :
    (p.rst = true ∧ deltaCycle p = false ∧ estimateCycle p = false ∧ idleCycle p = false) ∨
    (p.rst = false ∧ p.request = .nop ∧ deltaCycle p = false ∧ estimateCycle p = false ∧ idleCycle p = true) ∨
    (p.rst = false ∧ p.request = .delta p.steps ∧ deltaCycle p = true ∧ estimateCycle p = false ∧
      idleCycle p = false) ∨
    (p.rst = false ∧ p.request = .estimate (unpackLight p.light) ∧ deltaCycle p = false ∧ estimateCycle p = true ∧
      idleCycle p = false) := by
  cases hr : p.rst
  · rcases reqWord_cases p.req with h | h | h | h
    · exact .inr (.inl ⟨rfl, request_nop h, by simp [deltaCycle, reqValid, h], by simp [estimateCycle, reqValid, h],
        by simp [idleCycle, hr, request_nop h]⟩)
    · exact .inr (.inl ⟨rfl, request_nop_second h, by simp [deltaCycle, reqValid, h],
        by simp [estimateCycle, reqValid, h], by simp [idleCycle, hr, request_nop_second h]⟩)
    · exact .inr (.inr (.inl ⟨rfl, request_delta h, deltaCycle_of_delta hr h, by simp [estimateCycle, reqSelect, h],
        by simp [idleCycle, request_delta h]⟩))
    · exact .inr (.inr (.inr ⟨rfl, request_estimate h, by simp [deltaCycle, reqSelect, h],
        estimateCycle_of_estimate hr h, by simp [idleCycle, request_estimate h]⟩))
  · exact .inl ⟨rfl, by simp [deltaCycle, hr], by simp [estimateCycle, hr], by simp [idleCycle, hr]⟩

/-- The response of a cycle, from the register before it (R53, R57, R73, R87, R106). -/
def cycleResponse (l : Reading) (p : InputPorts) : Response :=
  if p.rst then .none
  else if deltaCycle p then .delta (trackerDelta l p.steps)
  else if estimateCycle p then .line (lineEstimate Config.THRESHOLD (unpackLight p.light))
  else .none

/-- The register after a cycle, from the register before it. -/
def cycleRegister (l : Reading) (p : InputPorts) : Reading :=
  if p.rst then 0 else if deltaCycle p then p.steps else l

/-- Everything one cycle of a run does. -/
theorem step_withInputs_cons (s : State) (p : InputPorts) (ps : List InputPorts) :
    ∃ t, step (withInputs s (p :: ps)) = .next t ∧ t.lastSteps = cycleRegister s.lastSteps p ∧ t.pending = ps ∧
      t.response = cycleResponse s.lastSteps p := by
  rw [step_of_pending (p := p) (ps := ps) rfl]
  rcases cycle_cases p with ⟨hr, hd, he, -⟩ | ⟨hr, hq, hd, he, -⟩ | ⟨hr, hq, hd, he, -⟩ | ⟨hr, hq, hd, he, -⟩
  · simp [hr, cycleRegister, cycleResponse, withInputs]
  · simp [hr, hq, hd, he, cycleRegister, cycleResponse, withInputs]
  · simp [hr, hq, hd, cycleRegister, cycleResponse, withInputs]
  · simp [hr, hq, hd, he, cycleRegister, cycleResponse, withInputs]

theorem withInputs_of_pending {s : State} {ps : List InputPorts} (h : s.pending = ps) : withInputs s ps = s := by
  rw [withInputs, ← h]

theorem core_run_succ (M : Host.Core) (k : Nat) (s : M.State) :
    M.run (k + 1) s = match M.step s with
      | .next t => M.run k t
      | .fault r => .fault r
      | .refused r => .refused r := rfl

/-- A run over p :: ps is a cycle with p and a run over ps. -/
theorem run_cons (s : State) (p : InputPorts) (ps : List InputPorts) :
    ∃ t, t.lastSteps = cycleRegister s.lastSteps p ∧ t.response = cycleResponse s.lastSteps p ∧ t.pending = ps ∧
      runEnd s (p :: ps) = runEnd t ps ∧ runResponses s (p :: ps) = t.response :: runResponses t ps := by
  obtain ⟨t, ht, hl, hp, hr⟩ := step_withInputs_cons s p ps
  have hc : core.step (withInputs s (p :: ps)) = .next t := ht
  refine ⟨t, hl, hr, hp, ?_, ?_⟩
  · have h := core_run_succ core ps.length (withInputs s (p :: ps))
    rw [hc] at h
    rw [runEnd, runEnd, withInputs_of_pending hp]
    exact h
  · rw [runResponses, List.length_cons, responses, ht, runResponses, withInputs_of_pending hp]

end Sys2Proof.Safety
end

