-- ==== Sys2Proof/Tests/Slice0.lean ====
section
/-!
SUPPORT. Tests whose expected results are the spec's own (95_test_vectors.md, rules R49 to R106), and for every statement
with hypotheses a state and operands that meet them all together.
-/

namespace Sys2Proof.Tests

open Sys2Proof.Machine Sys2Proof.Safety

/-! ### WellFormed: each check refuses an ill-formed term -/

theorem test_build_legal : buildWellFormed 16 12 1000 = true ∧ buildWellFormed 1 1 1 = true := by decide
theorem test_build_refuses_bits_zero : buildWellFormed 0 12 1000 = false := by decide
theorem test_build_refuses_sw_zero : buildWellFormed 16 0 1 = false := by decide
theorem test_build_refuses_threshold_zero : buildWellFormed 16 12 0 = false := by decide
theorem test_build_refuses_threshold_too_large : buildWellFormed 16 12 4096 = false := by decide
theorem test_reading_fits : readingFits 16 65535 = true ∧ readingFits 16 65536 = false := by decide
theorem test_sample_fits : sampleFits 12 4095 = true ∧ sampleFits 12 4096 = false := by decide
theorem test_line_refuses_reading : (Line.delta 1024).wellFormed 10 12 = false := by decide
theorem test_line_refuses_sample :
    (Line.estimate #v[0, 0, 0, 0, 0, 0, 0, 4096]).wellFormed 10 12 = false := by decide
theorem test_line_refuses_sync : (Line.sync 1024).wellFormed 10 12 = false := by decide

/-! ### Decoding: words written out from 30_encoding.md R46 and the light bus of 95_test_vectors.md -/

theorem test_decode_nop : decode 0b00#2 7 0 = .nop := rfl
theorem test_decode_nop_second_word : decode 0b01#2 7 0 = .nop := rfl
theorem test_decode_delta : decode 0b10#2 7 0 = .delta 7 := rfl
theorem test_decode_estimate : decode 0b11#2 7 0 = .estimate (unpackLight 0) := rfl

/-- Vector E19: sample 0 in the least significant digits of the bus. -/
theorem test_light_bus_order : unpackLight 0x0004B10000000000004B0000#96 =
    (#v[0#12, 1200#12, 0#12, 0#12, 0#12, 0#12, 1201#12, 0#12] : LightMap 12) := by decide

/-- Vector F5. -/
theorem test_light_bus_packed :
    packLight (#v[200#8, 201#8, 202#8, 203#8, 204#8, 205#8, 206#8, 207#8] : LightMap 8) =
      0xCFCECDCCCBCAC9C8#64 := by decide

theorem test_table_words :
    decodeTableWord 8 0 = some .nop ∧ decodeTableWord 8 2 = some (.delta 0) ∧
    decodeTableWord 8 3 = some (.estimate (unpackLight 0)) ∧ decodeTableWord 8 4 = none := ⟨rfl, rfl, rfl, rfl⟩

/-! ### One step of each request -/

/-- Section 2.8: NOP at `last_steps` = 6 leaves 6 (here any value) and answers nothing. -/
theorem test_nop (s : State) : exec .nop s = .next { s with response := .none, draws := s.draws + 1 } := rfl

/-- S2c, S3, S4, S7 and the midpoint rows of sections 2.1 and 2.2. -/
theorem test_delta_vectors :
    trackerDelta 11#16 6#16 = -5 ∧ trackerDelta 65535#16 0#16 = 1 ∧ trackerDelta 0#16 65535#16 = -1 ∧
    trackerDelta 1023#10 0#10 = 1 ∧ trackerDelta 32767#16 32768#16 = -65535 ∧
    trackerDelta 32768#16 0#16 = 32768 ∧ trackerDelta 100#16 40000#16 = -25636 ∧
    trackerDelta 300#10 700#10 = -624 ∧ trackerDelta 200#8 10#8 = 66 := by decide

/-- Section 2.9. -/
theorem test_delta_codes :
    deltaCode 16 (-5) = 0x1FFFB#17 ∧ deltaCode 16 (-65535) = 0x10001#17 ∧ deltaCode 10 (-511) = 0x601#11 ∧
    deltaCode 1 (-1) = 0x3#2 := by decide

/-- E14 (tie), E9 and E10 (the threshold is met exactly), E18 (no centroid) and E22 (idx 7 but absent). -/
theorem test_estimate_vectors :
    lineEstimate 1000#12 #v[3000, 0, 0, 0, 0, 0, 0, 3000] = some 4 ∧
    lineEstimate 1000#12 #v[999, 999, 999, 999, 999, 999, 999, 999] = none ∧
    lineEstimate 1000#12 #v[1000, 1000, 1000, 1000, 1000, 1000, 1000, 1000] = some 4 ∧
    lineEstimate 1000#12 #v[1500, 1400, 1300, 1200, 1100, 1600, 1000, 900] = some (-2) ∧
    lineEstimate 1000#12 #v[1, 2, 3, 4, 5, 6, 7, 8] = none ∧
    lineEstimate 128#8 #v[130, 131, 131, 130, 0, 0, 0, 0] = some 3 ∧
    lineEstimate 1#1 #v[0, 0, 0, 0, 0, 1, 0, 0] = some (-2) := by decide

/-- Section 2.9: the seven codes and the filler. -/
theorem test_position_codes :
    (posQ.toList.map fun q => posCode (some q)) = [0x4#4, 0x3#4, 0x2#4, 0x0#4, 0x0#4, 0xE#4, 0xD#4, 0xC#4] ∧
    posCode none = 0x0#4 := by decide

/-- Section 2.8: a reset with a DELTA of 900 pending leaves 0, not 900. -/
theorem test_reset_wins (s : State) :
    step (s.drive { rst := true, req := 0b10#2, steps := 900, light := 0 }) = .next s.takeReset := rfl

/-- The opcode-table words run as the first request after reset. -/
theorem test_first_request_after_reset :
    step (State.reset.withFetchWord 8 0) = exec .nop State.reset ∧
    step (State.reset.withFetchWord 8 2) = exec (.delta 0) State.reset := ⟨rfl, rfl⟩

/-- Lines of P6 and P3 in the notation of R55. -/
theorem test_read_lines :
    readLine ['D', 'E', 'L', 'T', 'A', ' ', '0', 'x', '2', 'B', 'C', ' ', ';', 'h'] = some (.delta 700) ∧
    readLine ['E', 'S', 'T', 'I', 'M', 'A', 'T', 'E', ' ', '1', ',', ' ', '2', ',', '3', ',', '4', ',', '5', ',', '6',
      ',', '7', ',', '8'] = some (.estimate #v[1, 2, 3, 4, 5, 6, 7, 8]) ∧
    readLine ['R', 'E', 'S', 'E', 'T'] = some .reset ∧ readLine [] = some .blank ∧
    readLine ['D', 'E', 'L', 'T', 'A'] = none := by decide

theorem test_written_response : (Response.line none).written = "=> absent" := rfl

/-! ### Witnesses: hypotheses that can be met, at boundary values -/

theorem withinHalfRange_one : withinHalfRange 16 1 := by constructor <;> decide
theorem withinHalfRange_minus_one : withinHalfRange 16 (-1) := by constructor <;> decide
theorem withinHalfRange_largest : withinHalfRange 16 32767 := by constructor <;> decide
theorem withinHalfRange_least : withinHalfRange 16 (-32767) := by constructor <;> decide

theorem crosses_upward : crossesMidpoint 32767#16 1 := by refine ⟨?_, ?_, ?_⟩ <;> decide
theorem crosses_downward : crossesMidpoint 32768#16 (-1) := by refine ⟨?_, ?_, ?_⟩ <;> decide
theorem crosses_not_on_wrap : ¬crossesMidpoint 65535#16 1 := fun h => absurd h.2.1 (by decide)
theorem crosses_not_on_backward_wrap : ¬crossesMidpoint 0#16 (-1) := fun h => absurd h.1 (by decide)
theorem crosses_not_in_half : ¬crossesMidpoint 32766#16 1 := fun h => absurd h.2.2 (by decide)

theorem no_motion_within (bits : Nat) : withinHalfRange bits 0 := by
  have h1 : (1 : Int) ≤ halfRange bits := one_le_pow₀ (by decide)
  constructor <;> omega

theorem no_motion_crosses_nothing {bits : Nat} (l : BitVec bits) : ¬crossesMidpoint l 0 := fun h => h.2.2 (by simp)

/-- A state whose next cycle is idle. -/
def idleNext : State := State.reset.drive InputPorts.quiet

/-- A state whose next cycle is a reset cycle with a DELTA beside it. -/
def resetNext : State := State.reset.drive { rst := true, req := 0b10#2, steps := 1, light := 0 }

theorem witness_StepRunsSampledRequest :
    idleNext.sampledInputs.rst = false ∧ idleNext.pending = InputPorts.quiet :: [] ∧ State.reset.pending = [] :=
  ⟨rfl, rfl, rfl⟩

theorem witness_ResetEdgeClearsRegister : resetNext.sampledInputs.rst = true := rfl

theorem witness_PowerUpRequestsComplete : ({ InputPorts.quiet with rst := true } : InputPorts).rst = true := rfl

theorem witness_UnselectedPortsAreFree : resetNext.sampledInputs.rst = true := rfl

theorem witness_HeldResetLeavesZero :
    ∀ q ∈ [{ InputPorts.quiet with rst := true }, { InputPorts.quiet with rst := true, req := 0b11#2 }],
      InputPorts.rst q = true := by simp

theorem witness_OnlyDeltaTouchesRegister :
    (∃ t, exec .nop idleNext = .next t) ∧ (∃ t, exec (.estimate (unpackLight 0)) idleNext = .next t) ∧
    (∃ t, exec .nop resetNext = .next t) ∧ (∀ r, Instr.nop ≠ .delta r) ∧
    (∀ r, Instr.estimate (unpackLight 0) ≠ .delta r) :=
  ⟨⟨_, rfl⟩, ⟨_, rfl⟩, ⟨_, rfl⟩, nofun, nofun⟩

theorem witness_DecodeFollowsRequestWord :
    ((0b11#2 = 0b10#2 → (0 : Reading) = 1) ∧ (0b11#2 = 0b11#2 → (5 : LightBus Config.SW) = 5)) ∧
    ((0b10#2 = 0b10#2 → (3 : Reading) = 3) ∧ (0b10#2 = 0b11#2 → (5 : LightBus Config.SW) = 6)) := by simp

theorem witness_EncodeInvertsDecode :
    ∀ w ∈ [0b00#2, 0b10#2, 0b11#2],
      ({ InputPorts.quiet with req := w, steps := 1, light := 1 } : InputPorts).rst = false ∧ w ≠ 0b01#2 := by
  simp [InputPorts.quiet]

theorem witness_SamplesLieInIndexOrder : (0 < 1) ∧ (11 < 12) := by decide

theorem witness_PositionPortsCarryResult :
    (∀ j : Fin 8, (Vector.replicate 8 (0 : BitVec Config.SW))[j].toNat < Config.THRESHOLD.toNat) ∧
    (∀ v, v = Config.THRESHOLD → Config.THRESHOLD.toNat ≤ (Vector.replicate 8 v)[(0 : Fin 8)].toNat ∧
      (∀ j : Fin 8, (Vector.replicate 8 v)[j].toNat ≤ (Vector.replicate 8 v)[(0 : Fin 8)].toNat) ∧
      (∀ j : Fin 8, j < 0 → (Vector.replicate 8 v)[j].toNat < (Vector.replicate 8 v)[(0 : Fin 8)].toNat)) := by
  have h := Config.THRESHOLD_pos
  refine ⟨fun j => by simp; omega, fun v hv => ⟨by simp [hv], fun j => by simp, fun j hj => absurd hj (by simp)⟩⟩

/-- The same hypotheses with the first maximum at index 7. -/
theorem witness_PositionPortsCarryResult_last (v : BitVec Config.SW) (hv : v = Config.THRESHOLD) :
    Config.THRESHOLD.toNat ≤ (#v[0, 0, 0, 0, 0, 0, 0, v] : LightMap Config.SW)[(7 : Fin 8)].toNat ∧
    (∀ j : Fin 8, (#v[0, 0, 0, 0, 0, 0, 0, v] : LightMap Config.SW)[j].toNat ≤ v.toNat) ∧
    (∀ j : Fin 8, j < 7 → (#v[0, 0, 0, 0, 0, 0, 0, v] : LightMap Config.SW)[j].toNat < v.toNat) := by
  have h := Config.THRESHOLD_pos
  have hz : 0 < v.toNat := by rw [hv]; omega
  refine ⟨by rw [← hv]; exact le_rfl, ?_, ?_⟩
  · simp [Fin.forall_fin_succ]
  · simp [Fin.forall_fin_succ, hz]

theorem witness_UnreadPortsHaveNoEffect :
    let p : InputPorts := { InputPorts.quiet with req := 0b10#2, steps := 1 }
    let s := State.reset.drive p
    let s' := State.reset.drive { p with light := 1 }
    s.lastSteps = s'.lastSteps ∧ s.sampledInputs.rst = s'.sampledInputs.rst ∧
    s.sampledInputs.req = s'.sampledInputs.req ∧
    (deltaCycle s.sampledInputs = true → s.sampledInputs.steps = s'.sampledInputs.steps) ∧
    (estimateCycle s.sampledInputs = true → s.sampledInputs.light = s'.sampledInputs.light) ∧
    (∃ t, step s = .next t) ∧ ∃ t', step s' = .next t' := by
  refine ⟨rfl, rfl, rfl, fun _ => rfl, fun h => absurd h (by decide), ⟨_, rfl⟩, ⟨_, rfl⟩⟩

theorem witness_WrapReportedWhenHalvesDiffer :
    (withinHalfRange 16 1 ∧ modulus 16 ≤ zext 65535#16 + 1) ∧ (withinHalfRange 16 (-1) ∧ zext 0#16 + (-1) < 0) ∧
    (withinHalfRange 16 1 ∧ crossesMidpoint 32767#16 1) :=
  ⟨⟨withinHalfRange_one, by decide⟩, ⟨withinHalfRange_minus_one, by decide⟩, withinHalfRange_one, crosses_upward⟩

theorem witness_DeltaClosedForm :
    (1 ≤ 16) ∧ topBit 32767#16 = topBit 0#16 ∧
    (halfRange 16 ≤ zext 32768#16 ∧ zext 32767#16 < halfRange 16) ∧
    (halfRange 16 ≤ zext 65535#16 ∧ zext 0#16 < halfRange 16) := by decide

/-- The width hypothesis of the tracker's laws, at the least width. -/
theorem witness_least_width : 1 ≤ 1 := le_rfl

theorem witness_DeltaAgainstIdeal :
    (halfRange 16 ≤ zext 32768#16 ∧ zext 32767#16 < halfRange 16 ∧
      zext 32768#16 - zext 32767#16 ≤ halfRange 16 - 1) ∧
    (halfRange 16 ≤ zext 32768#16 ∧ zext 0#16 < halfRange 16 ∧ zext 32768#16 - zext 0#16 ≤ halfRange 16) := by decide

theorem witness_LowBitsRecoverMotion : 1 ≤ 16 ∧ withinHalfRange 16 32767 ∧ withinHalfRange 16 (-32767) :=
  ⟨by decide, withinHalfRange_largest, withinHalfRange_least⟩

theorem witness_DeltaIsTrueMotion :
    (withinHalfRange 16 1 ∧ ¬crossesMidpoint 65535#16 1) ∧ (withinHalfRange 16 (-1) ∧ ¬crossesMidpoint 0#16 (-1)) ∧
    (withinHalfRange 16 1 ∧ ¬crossesMidpoint 32766#16 1) :=
  ⟨⟨withinHalfRange_one, crosses_not_on_wrap⟩, ⟨withinHalfRange_minus_one, crosses_not_on_backward_wrap⟩,
    withinHalfRange_one, crosses_not_in_half⟩

theorem witness_MidpointCrossingIsOffByModulus :
    (withinHalfRange 16 1 ∧ crossesMidpoint 32767#16 1 ∧ (0 : Int) < 1) ∧
    (withinHalfRange 16 (-1) ∧ crossesMidpoint 32768#16 (-1) ∧ (-1 : Int) < 0) :=
  ⟨⟨withinHalfRange_one, crosses_upward, by decide⟩, withinHalfRange_minus_one, crosses_downward, by decide⟩

theorem witness_MagnitudeRecoversMotion : 1 ≤ 16 ∧ withinHalfRange 16 32767 := ⟨by decide, withinHalfRange_largest⟩

theorem witness_CorrectionOpposesRawSign :
    wrapDetected 65535#16 0#16 = true ∧ wrapDetected 32767#16 32768#16 = true := by decide

theorem witness_OneBitTracker : withinHalfRange 1 0 := no_motion_within 1

theorem witness_PrimedPollReportsMotion :
    withinHalfRange Config.BITS 0 ∧ ¬crossesMidpoint (1 : Reading) 0 :=
  ⟨no_motion_within _, no_motion_crosses_nothing _⟩

/-- Two maps with the first maximum at index 6 and a detection, at two widths (E17 and one of 8-bit samples). -/
theorem witness_EstimateIsNoCentroid :
    let m : LightMap 12 := #v[100, 200, 150, 120, 110, 1800, 3000, 900]
    let m' : LightMap 8 := #v[0, 0, 0, 0, 0, 0, 129, 129]
    (∀ j : Fin 8, m[j].toNat ≤ m[(6 : Fin 8)].toNat) ∧ (∀ j : Fin 8, j < 6 → m[j].toNat < m[(6 : Fin 8)].toNat) ∧
    (∀ j : Fin 8, m'[j].toNat ≤ m'[(6 : Fin 8)].toNat) ∧
    (∀ j : Fin 8, j < 6 → m'[j].toNat < m'[(6 : Fin 8)].toNat) ∧
    ((1000#12).toNat ≤ m[(6 : Fin 8)].toNat ↔ (128#8).toNat ≤ m'[(6 : Fin 8)].toNat) := by decide

/-- One map for each clause with hypotheses: a lone sample, the largest of several (E18), the ties of index 2 with 5 and of
index 3 with 4 (E15, E16), the tie of index 0 with 7 (E14), a maximum at the threshold and one below it (E13, E12). -/
theorem witness_EstimateCornerCases :
    (let m : LightMap 12 := #v[999, 999, 999, 999, 999, 999, 999, 1000]
     (1000#12).toNat ≤ m[(7 : Fin 8)].toNat ∧ ∀ j : Fin 8, j ≠ 7 → m[j].toNat < (1000#12).toNat) ∧
    (let m : LightMap 12 := #v[1500, 1400, 1300, 1200, 1100, 1600, 1000, 900]
     (1000#12).toNat ≤ m[(5 : Fin 8)].toNat ∧ ∀ j : Fin 8, j ≠ 5 → m[j].toNat < m[(5 : Fin 8)].toNat) ∧
    (let m : LightMap 12 := #v[0, 0, 2500, 0, 0, 2500, 0, 0]
     (2 : Fin 8) < 5 ∧ (1000#12).toNat ≤ m[(2 : Fin 8)].toNat ∧ m[(2 : Fin 8)] = m[(5 : Fin 8)] ∧
       (∀ j : Fin 8, m[j].toNat ≤ m[(2 : Fin 8)].toNat) ∧ ∀ j : Fin 8, j < 2 → m[j] ≠ m[(2 : Fin 8)]) ∧
    (let m : LightMap 12 := #v[0, 0, 0, 2500, 2500, 0, 0, 0]
     (3 : Fin 8) < 4 ∧ (1000#12).toNat ≤ m[(3 : Fin 8)].toNat ∧ m[(3 : Fin 8)] = m[(4 : Fin 8)] ∧
       (∀ j : Fin 8, m[j].toNat ≤ m[(3 : Fin 8)].toNat) ∧ ∀ j : Fin 8, j < 3 → m[j] ≠ m[(3 : Fin 8)]) ∧
    (let m : LightMap 12 := #v[3000, 0, 0, 0, 0, 0, 0, 3000]
     (1000#12).toNat ≤ m[(0 : Fin 8)].toNat ∧ m[(0 : Fin 8)] = m[(7 : Fin 8)] ∧
       ∀ j : Fin 8, m[j].toNat ≤ m[(0 : Fin 8)].toNat) ∧
    (let m : LightMap 12 := #v[0, 0, 0, 0, 0, 0, 1000, 0]
     (∀ j : Fin 8, m[j].toNat ≤ m[(6 : Fin 8)].toNat) ∧ m[(6 : Fin 8)].toNat = (1000#12).toNat) ∧
    (let m : LightMap 12 := #v[0, 0, 0, 0, 0, 0, 999, 0]
     (∀ j : Fin 8, m[j].toNat ≤ m[(6 : Fin 8)].toNat) ∧ m[(6 : Fin 8)].toNat + 1 = (1000#12).toNat) ∧
    1 ≤ (1#12).toNat := by decide

theorem witness_OneBitEstimatorIsPriorityEncoder :
    (∀ i : Fin 8, (Vector.replicate 8 0#1)[i] = 0#1) ∧
    (let m : LightMap 1 := #v[0, 0, 0, 0, 0, 1, 0, 1]
     m[(5 : Fin 8)] = 1#1 ∧ ∀ j : Fin 8, j < 5 → m[j] = 0#1) := by decide

theorem witness_IdleCyclesAreInvisible :
    [InputPorts.quiet, { InputPorts.quiet with req := 0b01#2 }].filter (fun p => !idleCycle p) =
      ([] : List InputPorts).filter (fun p => !idleCycle p) := rfl

theorem witness_DeltasSumModulo :
    ∀ p ∈ [InputPorts.quiet, encode (.delta 1) InputPorts.quiet], InputPorts.rst p = false := by
  simp [InputPorts.quiet, encode]

theorem witness_TrustworthyDeltasSumExactly : motionsTrustworthy State.reset.lastSteps [0, 0] :=
  ⟨no_motion_within _, no_motion_crosses_nothing _,
    no_motion_within _, no_motion_crosses_nothing _, trivial⟩

theorem witness_StepKeepsResponsePossible :
    responsePossible idleNext.response ∧ ∃ t, step idleNext = .next t := ⟨trivial, ⟨_, rfl⟩⟩

theorem witness_BuildIsLegal : buildWellFormed 10 8 128 = true ∧ buildWellFormed 1 1 1 = true := by decide

theorem witness_ListingLinesDriveTheirRequests :
    readingFits Config.BITS (2 ^ Config.BITS - 1) = true ∧
    (Line.estimate (Vector.replicate 8 (2 ^ Config.SW - 1))).wellFormed Config.BITS Config.SW = true := by
  have h1 : 0 < 2 ^ Config.BITS := Nat.two_pow_pos _
  have h2 : 0 < 2 ^ Config.SW := Nat.two_pow_pos _
  constructor
  · simp only [readingFits, decide_eq_true_eq]
    omega
  · simp [Line.wellFormed, sampleFits]

end Sys2Proof.Tests
end

