-- ==== Sys2Proof/Proofs/LightBus.lean ====
section
/-!
SUPPORT. The bit positions of the samples on the light bus (20_memory.md section 2, R31).
-/

namespace Sys2Proof

/-- The unpacking counterpart of `packLight_getLsbD` (R31). -/
theorem unpackLight_getLsbD {sw : Nat} (bus : LightBus sw) (i : Fin 8) (j : Nat) (h : j < sw) :
    (unpackLight bus)[i].getLsbD j = bus.getLsbD (sw * i + j) := by
  rw [unpackLight_get, sampleAt_getLsbD bus i j h]

/-- Settles O15: each direction is the bit-position lemma of its function. -/
theorem samplesLieInIndexOrder : Obligations.SamplesLieInIndexOrder := by
  intro sw bus m i j hj
  exact ⟨unpackLight_getLsbD bus i j hj, packLight_getLsbD m i j hj⟩

end Sys2Proof
end

