-- ==== Sys2Proof/Proofs/DeltaPort.lean ====
section
/-!
SUPPORT. The tracker's result on the `delta` port (30_encoding.md section 4, R49), for every width: the range of the
result (40_encoder_delta.md section 3, R62), the round trip through the port, and the code that never occurs.
-/

namespace Sys2Proof.Machine

variable {bits : Nat}

/-- R62. A correction is applied only where it opposes the sign of the raw difference, so it never leaves the range. -/
theorem trackerDelta_range (l s : BitVec bits) :
    -(modulus bits - 1) ≤ trackerDelta l s ∧ trackerDelta l s ≤ modulus bits - 1 := by
  have hl := zext_nonneg l
  have hs := zext_nonneg s
  have hlN := zext_lt_modulus l
  have hsN := zext_lt_modulus s
  rcases trackerDelta_cases l s with ⟨-, hd⟩ | ⟨hlow, hhigh, hd⟩ | ⟨hlow, hhigh, hd⟩
  · omega
  · have : zext l < zext s := hlow.trans_le hhigh
    omega
  · have : zext s < zext l := hlow.trans_le hhigh
    omega

/-- A result in the two's-complement range of the port is got back by sign extension. -/
theorem deltaCode_toInt {d : Int} (hlow : -modulus bits ≤ d) (hhigh : d < modulus bits) :
    (deltaCode bits d).toInt = d :=
  BitVec.toInt_ofInt_eq_self (Nat.succ_pos bits) hlow hhigh

/-- The code of the least number of the port is 1 followed by zeros. -/
theorem deltaCode_neg_modulus (bits : Nat) : deltaCode bits (-modulus bits) = BitVec.ofNat (bits + 1) (2 ^ bits) := by
  have hmin : BitVec.ofNat (bits + 1) (2 ^ bits) = BitVec.intMin (bits + 1) :=
    BitVec.eq_of_toNat_eq <| by
      rw [BitVec.intMin, BitVec.toNat_twoPow, BitVec.toNat_ofNat, Nat.add_sub_cancel]
  calc deltaCode bits (-modulus bits)
      = -BitVec.ofInt (bits + 1) ((2 ^ bits : Nat) : Int) := by simp [deltaCode, tc, modulus, BitVec.ofInt_neg]
    _ = -BitVec.intMin (bits + 1) := by rw [BitVec.ofInt_natCast, hmin]
    _ = BitVec.ofNat (bits + 1) (2 ^ bits) := by rw [BitVec.neg_intMin, hmin]

theorem deltaCode_trackerDelta_toInt (l s : BitVec bits) :
    (deltaCode bits (trackerDelta l s)).toInt = trackerDelta l s := by
  obtain ⟨hlow, hhigh⟩ := trackerDelta_range l s
  exact deltaCode_toInt (by omega) (by omega)

/-- No result has the code of the least number, since both are got back from their codes and differ. -/
theorem deltaCode_trackerDelta_ne_neg_modulus (l s : BitVec bits) :
    deltaCode bits (trackerDelta l s) ≠ deltaCode bits (-modulus bits) := by
  intro heq
  obtain ⟨hlow, -⟩ := trackerDelta_range l s
  have hN : 0 < modulus bits := (zext_nonneg l).trans_lt (zext_lt_modulus l)
  have hd : trackerDelta l s = -modulus bits := by
    rw [← deltaCode_trackerDelta_toInt, heq, deltaCode_toInt le_rfl (by omega)]
  omega

/-- Settles O17: the port is the code of the tracker's result, to which the width-generic facts above apply. -/
theorem deltaPortCarriesResult : Obligations.DeltaPortCarriesResult := by
  intro s r
  obtain ⟨hlow, hhigh⟩ := trackerDelta_range s.lastSteps r
  refine ⟨_, _, exec_delta r s, respond_response _ _, ?_⟩
  rw [outputs_respond_delta, ← deltaCode_neg_modulus]
  exact ⟨rfl, deltaCode_trackerDelta_toInt _ _, hlow, hhigh, deltaCode_trackerDelta_ne_neg_modulus _ _⟩

end Sys2Proof.Machine
end

