-- ==== Sys2Proof/Proofs/PositionPorts.lean ====
section
/-!
SUPPORT. The estimator's result on the ports `present` and `pos` (30_encoding.md section 4, R50): the result for a map
whose first maximum is known, for every width and threshold, and the codes of the position table (R77).
-/

namespace Sys2Proof.Machine

variable {sw : Nat}

/-- R76. -/
theorem lineEstimate_of_all_below {threshold : BitVec sw} {m : LightMap sw}
    (h : ∀ j : Fin 8, m[j].toNat < threshold.toNat) : lineEstimate threshold m = none := by
  rw [lineEstimate_eq, if_pos (h _)]

/-- R73 to R75. -/
theorem lineEstimate_of_firstMax {threshold : BitVec sw} {m : LightMap sw} {i : Fin 8}
    (hreach : threshold.toNat ≤ m[i].toNat) (hmax : ∀ j : Fin 8, m[j].toNat ≤ m[i].toNat)
    (hfirst : ∀ j : Fin 8, j < i → m[j].toNat < m[i].toNat) : lineEstimate threshold m = some posQ[i] := by
  obtain rfl := firstMax_unique m i hmax hfirst
  rw [lineEstimate_eq, if_neg (by omega)]

/-- The `pos` codes of R50's table, by the index of the maximum. -/
theorem posCode_posQ (i : Fin 8) : posCode (some posQ[i]) =
    (#v[0x4#4, 0x3#4, 0x2#4, 0x0#4, 0x0#4, 0xE#4, 0xD#4, 0xC#4] : Vector (BitVec 4) 8)[i] := by
  revert i
  decide

theorem posCode_posQ_toInt (i : Fin 8) : (posCode (some posQ[i])).toInt = posQ[i] := by
  revert i
  decide

/-- The table counts in quarters (00_scope.md R13). -/
theorem posQ_div_four (i : Fin 8) :
    (posQ[i] : Rat) / 4 = (#v[1, 3 / 4, 1 / 2, 0, 0, -1 / 2, -3 / 4, -1] : Vector Rat 8)[i] := by
  fin_cases i <;> simp [posQ] <;> norm_num

/-- Settles O18: the response is the estimator's result for the map, and its code is the table's. -/
theorem positionPortsCarryResult : Obligations.PositionPortsCarryResult := by
  intro s m
  refine ⟨_, exec_estimate m s, fun hbelow => ?_, fun i hreach hmax hfirst => ?_⟩
  · rw [lineEstimate_of_all_below hbelow, outputs_respond_line]
    exact ⟨rfl, rfl, rfl⟩
  · rw [lineEstimate_of_firstMax hreach hmax hfirst, outputs_respond_line, posCode_posQ_toInt]
    exact ⟨rfl, posCode_posQ i, rfl, posQ_div_four i⟩

end Sys2Proof.Machine
end

