-- ==== Sys2Proof/Proofs/RequestWord.lean ====
section
/-!
SUPPORT. What the decoder reads of each port (30_encoding.md section 1, R43).
-/

namespace Sys2Proof

/-- The map on the bus as its eight slices. -/
theorem unpackLight_eq_ofFn {sw : Nat} (bus : LightBus sw) :
    unpackLight bus = Vector.ofFn fun i : Fin 8 => bus.extractLsb' (sw * i.val) sw := by
  apply Vector.ext
  intro i hi
  rw [Vector.getElem_ofFn]
  exact unpackLight_get bus ⟨i, hi⟩

/-- R43's decision, V first and then SEL. -/
theorem decode_eq_ite (req : ReqWord) (steps : Reading) (light : LightBus Config.SW) :
    decode req steps light =
      if req.getLsbD 1 = false then .nop
      else if req.getLsbD 0 = false then .delta steps
      else .estimate (unpackLight light) := by
  rcases reqWord_cases req with rfl | rfl | rfl | rfl <;> rfl

/-- The operand port that the word does not select has no effect (decision D3). -/
theorem decode_congr {req : ReqWord} {steps steps' : Reading} {light light' : LightBus Config.SW}
    (hsteps : req = 0b10#2 → steps = steps') (hlight : req = 0b11#2 → light = light') :
    decode req steps light = decode req steps' light' := by
  rcases reqWord_cases req with rfl | rfl | rfl | rfl
  · rw [decode_nop, decode_nop]
  · rw [decode_nop_second, decode_nop_second]
  · rw [decode_delta, decode_delta, hsteps rfl]
  · rw [decode_estimate, decode_estimate, hlight rfl]

/-- Settles O11: the decision with the map written as slices, and the frame of the unread operand port. -/
theorem decodeFollowsRequestWord : Obligations.DecodeFollowsRequestWord := by
  refine ⟨fun req steps light => ?_, fun _ _ _ _ _ => decode_congr⟩
  rw [decode_eq_ite, unpackLight_eq_ofFn]

end Sys2Proof
end

