-- ==== Sys2Proof/Proofs/WrapDetection.lean ====
section
/-!
SUPPORT. When the tracker reports a wrap (40_encoder_delta.md section 2, R59), for every width: by the halves of the two
readings, and for a motion of the counter within the half-range constraint (section 3, R65 to R67). Then the request DELTA
against the pseudocode of its rule, which tests for a wrap first (section 1, R57, R61).
-/

namespace Sys2Proof.Machine

open Sys2Proof.Safety

variable {bits : Nat}

theorem wrapDetected_iff (l s : BitVec bits) : wrapDetected l s = true ↔ topBit s ≠ topBit l := bne_iff_ne

/-- A wrap is reported when exactly one of the readings is in the upper half. -/
theorem wrapDetected_iff_halves (l s : BitVec bits) :
    wrapDetected l s = true ↔ ¬(halfRange bits ≤ zext s ↔ halfRange bits ≤ zext l) :=
  (wrapDetected_iff l s).trans (topBit_eq_iff l s).not

theorem modulus_eq_two_mul_halfRange (h : 1 ≤ bits) : modulus bits = 2 * halfRange bits := modulus_eq_twice_half h

/-- R24. The counter holds the sum of the old reading and the motion, reduced by the modulus. -/
theorem zext_counterAfter (l : BitVec bits) (m : Int) : zext (counterAfter l m) = (zext l + m) % modulus bits := by
  have hN : ((2 ^ bits : Nat) : Int) = modulus bits := by simp [modulus]
  have hpos : 0 < modulus bits := (zext_nonneg l).trans_lt (zext_lt_modulus l)
  rw [counterAfter, tc, zext, BitVec.toNat_ofInt, hN, Int.toNat_of_nonneg (Int.emod_nonneg _ hpos.ne')]

/-- A motion within the half-range constraint stays in the counter's range or leaves it once, at one of its ends. -/
theorem zext_counterAfter_cases (hbits : 1 ≤ bits) (l : BitVec bits) {m : Int} (hm : withinHalfRange bits m) :
    (0 ≤ zext l + m ∧ zext l + m < modulus bits ∧ zext (counterAfter l m) = zext l + m) ∨
    (zext l + m < 0 ∧ zext (counterAfter l m) = zext l + m + modulus bits) ∨
    (modulus bits ≤ zext l + m ∧ zext (counterAfter l m) = zext l + m - modulus bits) := by
  obtain ⟨hleast, hlargest⟩ := hm
  have hN := modulus_eq_two_mul_halfRange hbits
  have hl := zext_nonneg l
  have hlN := zext_lt_modulus l
  rw [zext_counterAfter]
  by_cases hneg : zext l + m < 0
  · refine .inr (.inl ⟨hneg, ?_⟩)
    rw [← Int.add_emod_right, Int.emod_eq_of_lt (by omega) (by omega)]
  · by_cases hover : modulus bits ≤ zext l + m
    · refine .inr (.inr ⟨hover, ?_⟩)
      rw [← Int.sub_emod_right, Int.emod_eq_of_lt (by omega) (by omega)]
    · exact .inl ⟨by omega, by omega, Int.emod_eq_of_lt (by omega) (by omega)⟩

/-- R59. A true wrap of less than H steps ends in the other half: it starts within H − 1 of the end it passes, and ends
within H − 1 of the other one. -/
theorem wrapDetected_of_true_wrap (hbits : 1 ≤ bits) (l : BitVec bits) {m : Int} (hm : withinHalfRange bits m)
    (hwrap : zext l + m < 0 ∨ modulus bits ≤ zext l + m) : wrapDetected l (counterAfter l m) = true := by
  have hN := modulus_eq_two_mul_halfRange hbits
  have hl := zext_nonneg l
  have hlN := zext_lt_modulus l
  have hcases := zext_counterAfter_cases hbits l hm
  obtain ⟨hleast, hlargest⟩ := hm
  rw [wrapDetected_iff_halves]
  rcases hcases with ⟨hlow, hhigh, -⟩ | ⟨hneg, hs⟩ | ⟨hover, hs⟩
  · omega
  · have hstart : zext l < halfRange bits := by omega
    have hend : halfRange bits ≤ zext (counterAfter l m) := by omega
    exact fun h => hstart.not_ge (h.mp hend)
  · have hstart : halfRange bits ≤ zext l := by omega
    have hend : zext (counterAfter l m) < halfRange bits := by omega
    exact fun h => hend.not_ge (h.mpr hstart)

/-- R67. A move across the midpoint reads as the sum, which is in the other half. -/
theorem wrapDetected_of_crossesMidpoint (l : BitVec bits) {m : Int} (hcross : crossesMidpoint l m) :
    wrapDetected l (counterAfter l m) = true := by
  obtain ⟨hlow, hhigh, hhalves⟩ := hcross
  have hs : zext (counterAfter l m) = zext l + m := by rw [zext_counterAfter, Int.emod_eq_of_lt hlow hhigh]
  rw [wrapDetected_iff_halves, hs, ← not_iff_not, not_le, not_le]
  exact fun h => hhalves h.symm

/-- Settles O21: the test on the top bits, the same test on the halves, and its two consequences for a motion. -/
theorem wrapReportedWhenHalvesDiffer : Obligations.WrapReportedWhenHalvesDiffer := by
  intro bits hbits
  exact ⟨wrapDetected_iff, wrapDetected_iff_halves, fun l _ hm hwrap => wrapDetected_of_true_wrap hbits l hm hwrap,
    fun l _ _ hcross => wrapDetected_of_crossesMidpoint l hcross⟩

/-- R57's pseudocode, the wrap test on the top bits and the comparisons on the unsigned readings. -/
theorem trackerDelta_eq_ite (l s : BitVec bits) : trackerDelta l s =
    if topBit s ≠ topBit l then
      if s.toNat > l.toNat then rawDelta l s - modulus bits
      else if s.toNat < l.toNat then rawDelta l s + modulus bits
      else rawDelta l s
    else rawDelta l s := by
  simp only [trackerDelta, wrapDetected_iff]
  congr 1
  rw [wrapCorrection]
  simp only [gt_iff_lt, BitVec.lt_def]
  split
  · exact Int.add_neg_eq_sub
  · split
    · rfl
    · exact Int.add_zero _

/-- Settles O8: what DELTA does to the state, with its result as the pseudocode. -/
theorem deltaAnswersCorrectedDifference : Obligations.DeltaAnswersCorrectedDifference := by
  refine ⟨decode_delta, fun s r => ⟨_, exec_delta r s, rfl, rfl, ?_⟩⟩
  rw [respond_response, trackerDelta_eq_ite]
  rfl

end Sys2Proof.Machine
end

