-- ==== Sys2Proof/Proofs/LinePosition.lean ====
section
/-!
SUPPORT. The estimator's laws (41_line_position.md): the first maximum and the threshold test of one ESTIMATE (sections
1 and 2, R73 to R76), and the estimator's responses over a run of cycles (section 3, R80).
-/

namespace Sys2Proof.Machine

variable {sw : Nat}

/-- R76: the maximum is below the threshold exactly when every sample is. -/
theorem lineEstimate_eq_none_iff (threshold : BitVec sw) (m : LightMap sw) :
    lineEstimate threshold m = none ↔ ∀ i : Fin 8, m[i].toNat < threshold.toNat := by
  refine ⟨fun habsent i => ?_, lineEstimate_of_all_below⟩
  have hmax : m[(firstMax m).1].toNat < threshold.toNat := by simpa [lineEstimate_eq] using habsent
  exact (le_firstMax m i).trans_lt hmax

/-- The all-zero map is absent for every threshold of at least 1. -/
theorem lineEstimate_replicate_zero {threshold : BitVec sw} (h : 1 ≤ threshold.toNat) :
    lineEstimate threshold (Vector.replicate 8 0) = none :=
  lineEstimate_of_all_below fun j => by
    rw [Fin.getElem_fin, Vector.getElem_replicate]
    exact h

/-- Settles O9: the index is the one the scan finds. -/
theorem estimateReportsFirstMaximum : Obligations.EstimateReportsFirstMaximum := by
  refine ⟨decode_estimate, fun s m =>
    ⟨_, (firstMax m).1, exec_estimate m s, le_firstMax m, lt_firstMax m, ?_, rfl, rfl⟩⟩
  rw [respond_response, lineEstimate_eq]
  rfl

/-- Settles O36: the threshold's domain makes the all-zero map a case of the test. -/
theorem absentWhenAllBelow : Obligations.AbsentWhenAllBelow := by
  refine ⟨fun _ => lineEstimate_eq_none_iff, ⟨Config.THRESHOLD_pos, Nat.le_sub_one_of_lt Config.THRESHOLD.isLt⟩,
    fun s => ⟨_, exec_estimate _ s, ?_⟩⟩
  rw [respond_response, lineEstimate_replicate_zero Config.THRESHOLD_pos]

end Sys2Proof.Machine

namespace Sys2Proof.Safety

open Sys2Proof.Machine

/-- An ESTIMATE cycle adds its map's result to the estimator's responses, whatever the register holds (R79). -/
theorem linesOf_cons_of_estimateCycle {p : InputPorts} (l : Reading) (rs : List Response)
    (he : estimateCycle p = true) : linesOf (cycleResponse l p :: rs) =
      lineEstimate Config.THRESHOLD (unpackLight p.light) :: linesOf rs := by
  rcases cycle_cases p with ⟨-, -, hne, -⟩ | ⟨-, -, -, hne, -⟩ | ⟨-, -, -, hne, -⟩ | ⟨hr, -, hd, -, -⟩
  · simp [he] at hne
  · simp [he] at hne
  · simp [he] at hne
  · simp [cycleResponse, hr, hd, he, linesOf]

/-- Any other cycle adds nothing. -/
theorem linesOf_cons_of_not_estimateCycle {p : InputPorts} (l : Reading) (rs : List Response)
    (he : estimateCycle p = false) : linesOf (cycleResponse l p :: rs) = linesOf rs := by
  rw [cycleResponse, he]
  cases p.rst
  · cases deltaCycle p <;> rfl
  · rfl

/-- R80, by induction on the cycles: the register differs from cycle to cycle and is never read. -/
theorem linesOf_runResponses (s : State) (ps : List InputPorts) :
    linesOf (runResponses s ps) =
      (ps.filter estimateCycle).map fun p => lineEstimate Config.THRESHOLD (unpackLight p.light) := by
  induction ps generalizing s with
  | nil => rfl
  | cons p ps ih =>
    obtain ⟨t, -, hresponse, -, -, hrun⟩ := run_cons s p ps
    rw [hrun, hresponse]
    cases he : estimateCycle p
    · rw [linesOf_cons_of_not_estimateCycle _ _ he, ih, List.filter_cons_of_neg (by simp [he])]
    · rw [linesOf_cons_of_estimateCycle _ _ he, ih, List.filter_cons_of_pos he, List.map_cons]

/-- Settles O43: both runs answer their maps, and the ESTIMATE cycles of the second are those of the first. -/
theorem estimatesDependOnMapsOnly : Obligations.EstimatesDependOnMapsOnly := by
  intro s s' ps
  refine ⟨?_, linesOf_runResponses s ps⟩
  simp only [linesOf_runResponses, List.filter_filter, Bool.and_self]

end Sys2Proof.Safety
end

