-- ==== Sys2Proof/Proofs/Completion.lean ====
section
/-!
SUPPORT. No request and no cycle faults or is refused (60_exceptions.md R89).
-/

namespace Sys2Proof

/-- No request has an operand value that its well-formedness excludes (R89, R98). -/
theorem Instr.wellFormed_eq_true (i : Instr) : i.WellFormed = true := by
  cases i with
  | nop => rfl
  | delta steps => rfl
  | estimate light => rfl

end Sys2Proof

namespace Sys2Proof.Machine

/-- A request completes for every operand and in every state (R89). -/
theorem exec_completes (i : Instr) (s : State) : ∃ t, exec i s = .next t := by
  cases i with
  | nop => exact ⟨_, exec_nop s⟩
  | delta steps => exact ⟨_, exec_delta steps s⟩
  | estimate light => exact ⟨_, exec_estimate light s⟩

/-- A cycle completes: a reset cycle by itself, any other because its request does. -/
theorem step_completes (s : State) : ∃ t, step s = .next t := by
  cases hr : s.sampledInputs.rst with
  | true => exact ⟨_, step_of_reset hr⟩
  | false =>
    rw [step_of_request hr]
    exact exec_completes _ _

/-- Settles O6: requests, cycles and decoded words, each by its own lemma. -/
theorem everyRequestCompletes : Obligations.EveryRequestCompletes :=
  ⟨exec_completes, step_completes, fun _ _ _ => Instr.wellFormed_eq_true _⟩

end Sys2Proof.Machine
end

section
/-!
SUPPORT. A cycle with `rst` high (70_reset_and_hazards.md, R106).
-/

namespace Sys2Proof.Machine

/-- Settles O2: `rst` alone selects the reset step, which then fixes the register, the response and the inputs consumed;
the ports beside it are never decoded. -/
theorem resetEdgeClearsRegister : Obligations.ResetEdgeClearsRegister := by
  intro s hrst
  refine ⟨s.consumeInputs.takeReset, step_of_reset hrst, takeReset_lastSteps _, takeReset_response _, ?_⟩
  rw [takeReset_pending, consumeInputs_pending]

end Sys2Proof.Machine
end

section
/-!
SUPPORT. A request and the ports that present it (30_encoding.md sections 1 to 3).
-/

namespace Sys2Proof

/-- The request's word selects its row, and the bus gives the map back. -/
theorem request_encode (i : Instr) (idle : InputPorts) : (encode i idle).request = i := by
  cases i with
  | nop => exact request_nop rfl
  | delta steps => exact request_delta rfl
  | estimate m => exact (request_estimate rfl).trans (congrArg Instr.estimate (unpackLight_packLight m))

/-- Settles O12: `rst` is low by the definition of the encoding. -/
theorem decodeInvertsEncode : Obligations.DecodeInvertsEncode :=
  fun i idle => ⟨request_encode i idle, rfl⟩

/-- Settles O13: in each canonical word the port that the request reads is packed again, the other is the idle
one. -/
theorem encodeInvertsDecode : Obligations.EncodeInvertsDecode := by
  rintro ⟨rst, req, steps, light⟩ hrst hreq
  obtain rfl : rst = false := hrst
  rcases reqWord_cases req with rfl | rfl | rfl | rfl
  · rw [request_nop rfl]
    rfl
  · exact absurd rfl hreq
  · rw [request_delta rfl]
    rfl
  · rw [request_estimate rfl]
    simp only [encode, encodeReq, packLight_unpackLight]

/-- Settles O14: of the three rows each word selects one. -/
theorem opcodeRowsPartitionWords : Obligations.OpcodeRowsPartitionWords := by
  intro w steps light
  rcases reqWord_cases w with rfl | rfl | rfl | rfl
  all_goals
    simp only [decode_nop, decode_nop_second, decode_delta, decode_estimate, Instr.mnemonic]
    decide

/-- Settles O16: the words by the decoder's equations, the bus value by evaluation. -/
theorem writtenOutWordsDecode : Obligations.WrittenOutWordsDecode :=
  ⟨decode_nop _ _, decode_nop_second _ _, decode_delta _ _, decode_estimate _ _, by decide⟩

end Sys2Proof
end

section
/-!
SUPPORT. Runs as functions of the register they start from: the register at the end (10_state.md section 1, R15) and
the tracker's results, with what idle, ESTIMATE and reset cycles do to them (41_line_position.md R79, 42_no_operation.md
R88, 70_reset_and_hazards.md R105).
-/

namespace Sys2Proof.Safety

open Sys2Proof.Machine

theorem runEnd_nil (s : State) : runEnd s [] = .next (withInputs s []) := rfl

@[simp] theorem registerAfter_nil (l : Reading) : registerAfter l [] = l := rfl

@[simp] theorem registerAfter_cons (l : Reading) (p : InputPorts) (ps : List InputPorts) :
    registerAfter l (p :: ps) = registerAfter (cycleRegister l p) ps := rfl

/-- Every run completes, with the register that its cycles leave, by induction on the cycles. -/
theorem runEnd_register (s : State) (ps : List InputPorts) :
    ∃ t, runEnd s ps = .next t ∧ t.lastSteps = registerAfter s.lastSteps ps ∧ t.pending = [] := by
  induction ps generalizing s with
  | nil => exact ⟨_, runEnd_nil s, rfl, rfl⟩
  | cons p ps ih =>
    obtain ⟨t, hregister, -, -, hend, -⟩ := run_cons s p ps
    rw [hend, registerAfter_cons, ← hregister]
    exact ih t

/-- Settles O40: the induction over the cycles of a run is `runEnd_register`. -/
theorem registerHoldsLastReading : Obligations.RegisterHoldsLastReading := runEnd_register

theorem cycleRegister_of_reset (l : Reading) {p : InputPorts} (hr : p.rst = true) : cycleRegister l p = 0 := if_pos hr

theorem cycleResponse_of_reset (l : Reading) {p : InputPorts} (hr : p.rst = true) : cycleResponse l p = .none :=
  if_pos hr

/-- R105: each reset cycle leaves what one alone would, so it is the last one that counts. -/
theorem runEnd_of_held_reset (s : State) (p : InputPorts) (ps : List InputPorts) (hrst : ∀ q ∈ p :: ps, q.rst = true) :
    ∃ t, runEnd s (p :: ps) = .next t ∧ t.lastSteps = 0 ∧ t.response = .none := by
  induction ps generalizing s p with
  | nil =>
    obtain ⟨t, hregister, hresponse, -, hend, -⟩ := run_cons s p []
    have hp : p.rst = true := hrst p List.mem_cons_self
    exact ⟨_, hend.trans (runEnd_nil t), hregister.trans (cycleRegister_of_reset _ hp),
      hresponse.trans (cycleResponse_of_reset _ hp)⟩
  | cons q qs ih =>
    obtain ⟨t, -, -, -, hend, -⟩ := run_cons s p (q :: qs)
    rw [hend]
    exact ih t q fun r hr => hrst r (List.mem_cons_of_mem p hr)

/-- Settles O3: the induction over the reset cycles is `runEnd_of_held_reset`. -/
theorem heldResetLeavesZero : Obligations.HeldResetLeavesZero := runEnd_of_held_reset

theorem rst_of_deltaCycle {p : InputPorts} (hd : deltaCycle p = true) : p.rst = false := by
  rw [deltaCycle] at hd
  cases hr : p.rst
  · rfl
  · simp [hr] at hd

theorem cycleRegister_of_deltaCycle (l : Reading) {p : InputPorts} (hd : deltaCycle p = true) :
    cycleRegister l p = p.steps := by
  simp [cycleRegister, rst_of_deltaCycle hd, hd]

theorem cycleRegister_of_not_deltaCycle (l : Reading) {p : InputPorts} (hr : p.rst = false)
    (hd : deltaCycle p = false) : cycleRegister l p = l := by
  simp [cycleRegister, hr, hd]

/-- The tracker's results over a run of the cycles `ps` from the register `l`; `deltasOf_runResponses` ties it to the
run. -/
def trackerResults : Reading → List InputPorts → List Int
  | _, [] => []
  | l, p :: ps =>
    if deltaCycle p then trackerDelta l p.steps :: trackerResults p.steps ps
    else trackerResults (cycleRegister l p) ps

theorem trackerResults_cons_of_deltaCycle (l : Reading) {p : InputPorts} (ps : List InputPorts)
    (hd : deltaCycle p = true) : trackerResults l (p :: ps) = trackerDelta l p.steps :: trackerResults p.steps ps :=
  if_pos hd

theorem trackerResults_cons_of_not_deltaCycle (l : Reading) {p : InputPorts} (ps : List InputPorts)
    (hd : deltaCycle p = false) : trackerResults l (p :: ps) = trackerResults (cycleRegister l p) ps :=
  if_neg (by simp [hd])

theorem deltasOf_cons_of_deltaCycle (l : Reading) {p : InputPorts} (rs : List Response) (hd : deltaCycle p = true) :
    deltasOf (cycleResponse l p :: rs) = trackerDelta l p.steps :: deltasOf rs := by
  simp [cycleResponse, rst_of_deltaCycle hd, hd, deltasOf]

theorem deltasOf_cons_of_not_deltaCycle (l : Reading) {p : InputPorts} (rs : List Response)
    (hd : deltaCycle p = false) : deltasOf (cycleResponse l p :: rs) = deltasOf rs := by
  rw [cycleResponse, hd]
  cases p.rst
  · cases estimateCycle p <;> rfl
  · rfl

/-- The tracker's results depend on the register and the cycles alone, by induction on the cycles. -/
theorem deltasOf_runResponses (s : State) (ps : List InputPorts) :
    deltasOf (runResponses s ps) = trackerResults s.lastSteps ps := by
  induction ps generalizing s with
  | nil => rfl
  | cons p ps ih =>
    obtain ⟨t, hregister, hresponse, -, -, hrun⟩ := run_cons s p ps
    rw [hrun, hresponse]
    cases hd : deltaCycle p
    · rw [deltasOf_cons_of_not_deltaCycle _ _ hd, ih, hregister, trackerResults_cons_of_not_deltaCycle _ _ hd]
    · rw [deltasOf_cons_of_deltaCycle _ _ hd, ih, hregister, cycleRegister_of_deltaCycle _ hd,
        trackerResults_cons_of_deltaCycle _ _ hd]

/-! Cycles that the tracker does not see: neither a reset nor a DELTA. -/

/-- The test `keep` drops no reset cycle and no DELTA cycle. -/
def DropsUntracked (keep : InputPorts → Bool) : Prop :=
  ∀ p, keep p = false → p.rst = false ∧ deltaCycle p = false

theorem registerAfter_filter {keep : InputPorts → Bool} (hkeep : DropsUntracked keep) (l : Reading)
    (ps : List InputPorts) : registerAfter l (ps.filter keep) = registerAfter l ps := by
  induction ps generalizing l with
  | nil => rfl
  | cons p ps ih =>
    cases hk : keep p
    · obtain ⟨hr, hd⟩ := hkeep p hk
      rw [List.filter_cons_of_neg (by simp [hk]), registerAfter_cons, cycleRegister_of_not_deltaCycle l hr hd, ih]
    · rw [List.filter_cons_of_pos hk, registerAfter_cons, registerAfter_cons, ih]

theorem trackerResults_filter {keep : InputPorts → Bool} (hkeep : DropsUntracked keep) (l : Reading)
    (ps : List InputPorts) : trackerResults l (ps.filter keep) = trackerResults l ps := by
  induction ps generalizing l with
  | nil => rfl
  | cons p ps ih =>
    cases hk : keep p
    · obtain ⟨hr, hd⟩ := hkeep p hk
      rw [List.filter_cons_of_neg (by simp [hk]), trackerResults_cons_of_not_deltaCycle l ps hd,
        cycleRegister_of_not_deltaCycle l hr hd, ih]
    · rw [List.filter_cons_of_pos hk]
      simp only [trackerResults, ih]

/-- Runs over sequences with the same register at the end, as the statements put it. -/
theorem runEnd_congr (s : State) {ps qs : List InputPorts}
    (h : registerAfter s.lastSteps ps = registerAfter s.lastSteps qs) :
    ∃ t u, runEnd s ps = .next t ∧ runEnd s qs = .next u ∧ t.lastSteps = u.lastSteps := by
  obtain ⟨t, ht, htregister, -⟩ := runEnd_register s ps
  obtain ⟨u, hu, huregister, -⟩ := runEnd_register s qs
  exact ⟨t, u, ht, hu, by rw [htregister, huregister, h]⟩

theorem untracked_of_idleCycle {p : InputPorts} (hi : idleCycle p = true) :
    p.rst = false ∧ deltaCycle p = false ∧ estimateCycle p = false := by
  rcases cycle_cases p with ⟨-, -, -, hn⟩ | ⟨hr, -, hd, he, -⟩ | ⟨-, -, -, -, hn⟩ | ⟨-, -, -, -, hn⟩
  · simp [hi] at hn
  · exact ⟨hr, hd, he⟩
  · simp [hi] at hn
  · simp [hi] at hn

theorem untracked_of_estimateCycle {p : InputPorts} (he : estimateCycle p = true) :
    p.rst = false ∧ deltaCycle p = false := by
  rcases cycle_cases p with ⟨-, -, hn, -⟩ | ⟨-, -, -, hn, -⟩ | ⟨-, -, -, hn, -⟩ | ⟨hr, -, hd, -, -⟩
  · simp [he] at hn
  · simp [he] at hn
  · simp [he] at hn
  · exact ⟨hr, hd⟩

theorem dropsUntracked_idle : DropsUntracked fun p => !idleCycle p := by
  intro p hp
  obtain ⟨hr, hd, -⟩ := untracked_of_idleCycle (by simpa using hp)
  exact ⟨hr, hd⟩

theorem dropsUntracked_idle_or_estimate : DropsUntracked fun p => !(idleCycle p || estimateCycle p) := by
  intro p hp
  have hie : idleCycle p = true ∨ estimateCycle p = true := by
    simpa [Decidable.imp_iff_not_or] using hp
  rcases hie with hi | he
  · obtain ⟨hr, hd, -⟩ := untracked_of_idleCycle hi
    exact ⟨hr, hd⟩
  · exact untracked_of_estimateCycle he

/-- An idle cycle is no ESTIMATE, so dropping the idle cycles first changes no selection of the ESTIMATE cycles. -/
theorem filter_estimateCycle_filter_idle (ps : List InputPorts) :
    (ps.filter fun p => !idleCycle p).filter estimateCycle = ps.filter estimateCycle := by
  rw [List.filter_filter]
  congr 1
  funext p
  cases hi : idleCycle p
  · simp
  · obtain ⟨-, -, he⟩ := untracked_of_idleCycle hi
    simp [he]

/-- Settles O41: each of the three observations of a run is that of the run without its idle cycles. -/
theorem idleCyclesAreInvisible : Obligations.IdleCyclesAreInvisible := by
  intro s ps qs h
  refine ⟨?_, ?_, runEnd_congr s ?_⟩
  · rw [deltasOf_runResponses, deltasOf_runResponses, ← trackerResults_filter dropsUntracked_idle, h,
      trackerResults_filter dropsUntracked_idle]
  · rw [linesOf_runResponses, linesOf_runResponses, ← filter_estimateCycle_filter_idle ps, h,
      filter_estimateCycle_filter_idle]
  · rw [← registerAfter_filter dropsUntracked_idle, h, registerAfter_filter dropsUntracked_idle]

/-- Settles O42: the cycles removed are neither resets nor DELTAs. -/
theorem estimatesAreInvisibleToTracker : Obligations.EstimatesAreInvisibleToTracker := by
  intro s ps
  refine ⟨?_, runEnd_congr s (registerAfter_filter dropsUntracked_idle_or_estimate _ ps).symm⟩
  rw [deltasOf_runResponses, deltasOf_runResponses, trackerResults_filter dropsUntracked_idle_or_estimate]

end Sys2Proof.Safety
end

section
/-!
SUPPORT. The tracker's arithmetic laws, for every width (40_encoder_delta.md section 3, R62 to R70;
70_reset_and_hazards.md section 3, R115): the closed form by the halves of the readings, the ideal modular delta, and
the result of a poll after a motion of the counter.
-/

namespace Sys2Proof.Machine

open Sys2Proof.Safety

variable {bits : Nat}

theorem zext_range (v : BitVec bits) : 0 ≤ zext v ∧ zext v < modulus bits := ⟨zext_nonneg v, zext_lt_modulus v⟩

theorem topBit_eq_iff_halves (l s : BitVec bits) :
    topBit s = topBit l ↔ (halfRange bits ≤ zext s ↔ halfRange bits ≤ zext l) := topBit_eq_iff l s

/-- `trackerDelta_cases` with the halves of both readings in every case, for linear arithmetic. -/
theorem trackerDelta_halves (l s : BitVec bits) :
    ((halfRange bits ≤ zext s ↔ halfRange bits ≤ zext l) ∧ trackerDelta l s = zext s - zext l) ∨
    (zext l < halfRange bits ∧ halfRange bits ≤ zext s ∧ trackerDelta l s = zext s - zext l - modulus bits) ∨
    (zext s < halfRange bits ∧ halfRange bits ≤ zext l ∧ trackerDelta l s = zext s - zext l + modulus bits) := by
  rw [← topBit_eq_iff_halves]
  exact trackerDelta_cases l s

/-- Settles O22: each case of the closed form excludes the two others. -/
theorem deltaClosedForm : Obligations.DeltaClosedForm := by
  intro bits l s hbits
  rw [topBit_eq_iff_halves]
  have hN := modulus_eq_two_mul_halfRange hbits
  have hl := zext_range l
  have hs := zext_range s
  have hcases := trackerDelta_halves l s
  refine ⟨fun hsame => ?_, fun hhigh hlow => ?_, fun hhigh hlow => ?_⟩
  · omega
  · omega
  · omega

/-- Settles O23: the range, and the round trip through the port. -/
theorem deltaFitsItsPort : Obligations.DeltaFitsItsPort := by
  intro bits l s _
  obtain ⟨hlow, hhigh⟩ := trackerDelta_range l s
  exact ⟨hlow, hhigh, deltaCode_trackerDelta_toInt l s, deltaCode_trackerDelta_ne_neg_modulus l s⟩

/-! The words `tc` makes of integers. -/

theorem tc_eq_of_emod_eq {w : Nat} {x y : Int} (h : x % modulus w = y % modulus w) : tc w x = tc w y := by
  have hN : ((2 ^ w : Nat) : Int) = modulus w := by simp [modulus]
  apply BitVec.eq_of_toNat_eq
  rw [tc, tc, BitVec.toNat_ofInt, BitVec.toNat_ofInt, hN, h]

theorem tc_zext {w : Nat} (v : BitVec w) : tc w (zext v) = v := by simp [tc, zext]

/-- The modular difference of two words is the word of their difference. -/
theorem tc_zext_sub_zext {w : Nat} (l s : BitVec w) : tc w (zext s - zext l) = s - l := by
  apply BitVec.eq_of_toInt_eq
  rw [tc, BitVec.toInt_ofInt, BitVec.toInt_sub, BitVec.toInt_eq_toNat_bmod, BitVec.toInt_eq_toNat_bmod,
    Int.bmod_sub_bmod, Int.sub_bmod_bmod, zext, zext]

/-- The low bits of a word one bit wider. -/
theorem setWidth_tc_succ (w : Nat) (x : Int) : (tc (w + 1) x).setWidth w = tc w x := by
  have hpos : 0 ≤ x % modulus (w + 1) := Int.emod_nonneg _ (pow_ne_zero _ two_ne_zero)
  obtain ⟨n, hn⟩ := Int.eq_ofNat_of_zero_le hpos
  have hdvd : modulus w ∣ modulus (w + 1) := pow_dvd_pow 2 (Nat.le_succ w)
  have hwide : tc (w + 1) x = tc (w + 1) n := tc_eq_of_emod_eq (by rw [← hn, Int.emod_emod])
  have hnarrow : tc w x = tc w n := tc_eq_of_emod_eq (by rw [← hn, Int.emod_emod_of_dvd _ hdvd])
  rw [hwide, hnarrow, tc, tc, BitVec.ofInt_natCast, BitVec.ofInt_natCast, BitVec.setWidth_ofNat_of_le (Nat.le_succ w)]

/-- R63. Every correction is a multiple of the modulus. -/
theorem trackerDelta_sub_emod (l s : BitVec bits) : (trackerDelta l s - (zext s - zext l)) % modulus bits = 0 := by
  rcases trackerDelta_cases l s with ⟨-, hd⟩ | ⟨-, -, hd⟩ | ⟨-, -, hd⟩
  · simp [hd]
  · rw [hd, sub_sub_cancel_left, Int.neg_emod_self]
  · rw [hd, add_sub_cancel_left, Int.emod_self]

theorem setWidth_deltaCode_trackerDelta (l s : BitVec bits) :
    (deltaCode bits (trackerDelta l s)).setWidth bits = s - l := by
  rw [deltaCode, setWidth_tc_succ, ← tc_zext_sub_zext]
  exact tc_eq_of_emod_eq (Int.emod_eq_emod_iff_emod_sub_eq_zero.mpr (trackerDelta_sub_emod l s))

/-- Settles O24: R63's congruence, on integers and on the code's low bits. -/
theorem deltaCongruentToDifference : Obligations.DeltaCongruentToDifference :=
  fun _ l s _ => ⟨trackerDelta_sub_emod l s, setWidth_deltaCode_trackerDelta l s⟩

theorem zext_inj {l s : BitVec bits} : zext s = zext l ↔ s = l := by
  rw [zext, zext, Int.natCast_inj, BitVec.toNat_inj]

/-- R64. A corrected difference is not 0, since a raw difference is smaller than the modulus. -/
theorem trackerDelta_eq_zero_iff (l s : BitVec bits) : trackerDelta l s = 0 ↔ s = l := by
  rw [← zext_inj]
  have hl := zext_range l
  have hs := zext_range s
  have hcases := trackerDelta_halves l s
  omega

/-- Settles O25: the request stores the reading it was compared with. -/
theorem zeroDeltaIsNoMovement : Obligations.ZeroDeltaIsNoMovement := by
  refine ⟨fun _ l s _ => trackerDelta_eq_zero_iff l s, fun s r => ⟨_, exec_delta r s, ?_⟩⟩
  rw [respond_response, Response.delta.injEq, respond_lastSteps, setLastSteps_lastSteps, trackerDelta_eq_zero_iff]

/-! The ideal modular delta. -/

/-- The ideal delta is the one representative of the difference in −H .. H − 1 (R65). -/
theorem idealDelta_eq_of_emod (hbits : 1 ≤ bits) {l s : BitVec bits} {d : Int} (hlow : -halfRange bits ≤ d)
    (hhigh : d < halfRange bits) (hcongr : d % modulus bits = (zext s - zext l) % modulus bits) :
    idealDelta l s = d := by
  rw [idealDelta, ← tc_zext_sub_zext, ← tc_eq_of_emod_eq hcongr]
  exact BitVec.toInt_ofInt_eq_self hbits hlow hhigh

/-- A difference outside −H .. H − 1 is brought back by one modulus. -/
theorem idealDelta_cases (hbits : 1 ≤ bits) (l s : BitVec bits) :
    (-halfRange bits ≤ zext s - zext l ∧ zext s - zext l < halfRange bits ∧ idealDelta l s = zext s - zext l) ∨
    (halfRange bits ≤ zext s - zext l ∧ idealDelta l s = zext s - zext l - modulus bits) ∨
    (zext s - zext l < -halfRange bits ∧ idealDelta l s = zext s - zext l + modulus bits) := by
  have hN := modulus_eq_two_mul_halfRange hbits
  have hl := zext_range l
  have hs := zext_range s
  by_cases hover : halfRange bits ≤ zext s - zext l
  · exact .inr (.inl ⟨hover, idealDelta_eq_of_emod hbits (by omega) (by omega) (Int.sub_emod_right _ _)⟩)
  · by_cases hunder : zext s - zext l < -halfRange bits
    · exact .inr (.inr ⟨hunder, idealDelta_eq_of_emod hbits (by omega) (by omega) (Int.add_emod_right _ _)⟩)
    · exact .inl ⟨by omega, by omega, idealDelta_eq_of_emod hbits (by omega) (by omega) rfl⟩

/-- Settles O26: both deltas differ from s − l by a multiple of the modulus that the halves and the size of s − l
fix. -/
theorem deltaAgainstIdeal : Obligations.DeltaAgainstIdeal := by
  intro bits l s hbits
  rw [sameHalf, topBit_eq_iff_halves]
  have hN := modulus_eq_two_mul_halfRange hbits
  have hl := zext_range l
  have hs := zext_range s
  have htracker := trackerDelta_halves l s
  have hideal := idealDelta_cases hbits l s
  refine ⟨?_, fun hhigh hlow hclose => ?_, fun hhigh hlow hclose => ?_⟩
  · omega
  · omega
  · omega

theorem lowBitsDelta_deltaCode_trackerDelta (l s : BitVec bits) :
    lowBitsDelta (deltaCode bits (trackerDelta l s)) = idealDelta l s := by
  rw [lowBitsDelta, setWidth_deltaCode_trackerDelta, idealDelta]

/-- R65. The counter's reduction modulo N keeps the congruence, and the motion is in the ideal delta's range. -/
theorem idealDelta_counterAfter (hbits : 1 ≤ bits) (l : BitVec bits) {m : Int} (hm : withinHalfRange bits m) :
    idealDelta l (counterAfter l m) = m := by
  obtain ⟨hleast, hlargest⟩ := hm
  refine idealDelta_eq_of_emod hbits (by omega) (by omega) ?_
  rw [zext_counterAfter, Int.emod_sub_emod, add_sub_cancel_left]

/-- Settles O27: the low bits are the modular difference, which a motion's sign extension gives back. -/
theorem lowBitsRecoverMotion : Obligations.LowBitsRecoverMotion := by
  intro bits hbits
  refine ⟨lowBitsDelta_deltaCode_trackerDelta, fun l m hm => ⟨idealDelta_counterAfter hbits l hm, ?_⟩⟩
  rw [lowBitsDelta_deltaCode_trackerDelta, idealDelta_counterAfter hbits l hm]

/-! The result after a motion of the counter. -/

/-- R67. A motion that stays in the range and in its half, or that wraps, is answered exactly. -/
theorem trackerDelta_counterAfter (hbits : 1 ≤ bits) (l : BitVec bits) {m : Int} (hm : withinHalfRange bits m)
    (hcross : ¬crossesMidpoint l m) : trackerDelta l (counterAfter l m) = m := by
  have hN := modulus_eq_two_mul_halfRange hbits
  have hl := zext_range l
  have hcases := trackerDelta_halves l (counterAfter l m)
  have hafter := zext_counterAfter_cases hbits l hm
  obtain ⟨hleast, hlargest⟩ := hm
  rw [crossesMidpoint] at hcross
  rcases hafter with ⟨hlow, hhigh, hs⟩ | ⟨hneg, hs⟩ | ⟨hover, hs⟩
  · have hhalves : zext l < halfRange bits ↔ zext l + m < halfRange bits := by
      by_contra hne
      exact hcross ⟨hlow, hhigh, hne⟩
    omega
  · omega
  · omega

/-- R67. The direction of a crossing is the sign of the motion, and the correction is taken against it. -/
theorem trackerDelta_of_crossesMidpoint {l : BitVec bits} {m : Int} (hcross : crossesMidpoint l m) :
    (0 < m ∧ trackerDelta l (counterAfter l m) = m - modulus bits) ∨
    (m < 0 ∧ trackerDelta l (counterAfter l m) = m + modulus bits) := by
  obtain ⟨hlow, hhigh, hhalves⟩ := hcross
  have hs : zext (counterAfter l m) = zext l + m := by rw [zext_counterAfter, Int.emod_eq_of_lt hlow hhigh]
  have hcases := trackerDelta_halves l (counterAfter l m)
  omega

/-- Settles O28, for every width by the law of R67. -/
theorem deltaIsTrueMotion : Obligations.DeltaIsTrueMotion :=
  fun _ l _ hbits hm hcross => trackerDelta_counterAfter hbits l hm hcross

/-- Settles O29: the two directions of a crossing exclude each other. -/
theorem midpointCrossingIsOffByModulus : Obligations.MidpointCrossingIsOffByModulus := by
  intro bits l m _ _ hcross
  rcases trackerDelta_of_crossesMidpoint hcross with ⟨hpos, hd⟩ | ⟨hneg, hd⟩
  · exact ⟨fun _ => hd, fun h => absurd h hpos.not_gt, hpos.ne'⟩
  · exact ⟨fun h => absurd h hneg.not_gt, fun _ => hd, hneg.ne⟩

/-- Settles O30: a response has magnitude H or more exactly after a crossing of the midpoint. -/
theorem magnitudeRecoversMotion : Obligations.MagnitudeRecoversMotion := by
  intro bits l m hbits hm
  have hN := modulus_eq_two_mul_halfRange hbits
  have ⟨hleast, hlargest⟩ := hm
  by_cases hcross : crossesMidpoint l m
  · rcases trackerDelta_of_crossesMidpoint hcross with ⟨hpos, hd⟩ | ⟨hneg, hd⟩
    · rw [magnitudeRecovery, hd, if_neg (by omega), if_pos (by omega), sub_add_cancel]
    · rw [magnitudeRecovery, hd, if_pos (by omega), add_sub_cancel_right]
  · rw [magnitudeRecovery, trackerDelta_counterAfter hbits l hm hcross, if_neg (by omega), if_neg (by omega)]

/-- Settles O31: the reading in the upper half is the larger one. -/
theorem correctionOpposesRawSign : Obligations.CorrectionOpposesRawSign := by
  intro bits l s _ hwrap
  rw [wrapDetected_iff_halves] at hwrap
  have hcases := trackerDelta_halves l s
  rw [rawDelta]
  omega

/-- Settles O32: the four pairs by evaluation; half the range is 1. -/
theorem oneBitTracker : Obligations.OneBitTracker := by
  refine ⟨by decide, by decide, by decide, by decide, fun m hm => ?_⟩
  have hH : halfRange 1 = 1 := rfl
  obtain ⟨hleast, hlargest⟩ := hm
  omega

/-- Settles O33, by evaluation of the model. -/
theorem documentedPolls : Obligations.DocumentedPolls := by
  unfold Obligations.DocumentedPolls
  decide

/-- Settles O34: the second poll compares the reading with itself. -/
theorem repeatedPollAnswersZero : Obligations.RepeatedPollAnswersZero := by
  refine fun s r => ⟨_, _, exec_delta r s, exec_delta r _, ?_, rfl⟩
  rw [respond_response, respond_lastSteps, setLastSteps_lastSteps, (trackerDelta_eq_zero_iff r r).mpr rfl]

/-- Settles O35: the priming poll leaves its reading, from which the second poll starts. -/
theorem primedPollReportsMotion : Obligations.PrimedPollReportsMotion := by
  refine fun s c m hm hcross => ⟨_, _, exec_delta c s, exec_delta _ _, ?_⟩
  rw [respond_response, respond_lastSteps, setLastSteps_lastSteps,
    trackerDelta_counterAfter Config.BITS_pos c hm hcross]

end Sys2Proof.Machine
end

section
/-!
SUPPORT. What the tracker's results of a run add up to (40_encoder_delta.md section 3, R68).
-/

namespace Sys2Proof.Safety

open Sys2Proof.Machine

/-- R68. Without a reset each result moves the sum along with the register, up to a multiple of the modulus; the sum
telescopes by induction on the cycles. -/
theorem sum_trackerResults_modEq (l : Reading) {ps : List InputPorts} (hrst : ∀ p ∈ ps, p.rst = false) :
    (trackerResults l ps).sum ≡ zext (registerAfter l ps) - zext l [ZMOD modulus Config.BITS] := by
  induction ps generalizing l with
  | nil => simp [trackerResults]
  | cons p ps ih =>
    have hp : p.rst = false := hrst p List.mem_cons_self
    have htail := fun l => ih l fun q hq => hrst q (List.mem_cons_of_mem p hq)
    rw [registerAfter_cons]
    cases hd : deltaCycle p
    · rw [trackerResults_cons_of_not_deltaCycle l ps hd, cycleRegister_of_not_deltaCycle l hp hd]
      exact htail l
    · rw [trackerResults_cons_of_deltaCycle l ps hd, cycleRegister_of_deltaCycle l hd, List.sum_cons]
      have hhead : trackerDelta l p.steps ≡ zext p.steps - zext l [ZMOD modulus Config.BITS] :=
        Int.emod_eq_emod_iff_emod_sub_eq_zero.mpr (trackerDelta_sub_emod l p.steps)
      have hsum := hhead.add (htail p.steps)
      rwa [add_comm (zext p.steps - zext l), sub_add_sub_cancel] at hsum

/-- Settles O44: the sum telescopes over the register that the run ends with. -/
theorem deltasSumModulo : Obligations.DeltasSumModulo := by
  intro s ps hrst
  obtain ⟨t, hend, hregister, -⟩ := runEnd_register s ps
  refine ⟨t, hend, ?_⟩
  rw [deltasOf_runResponses, hregister]
  exact Int.emod_eq_emod_iff_emod_sub_eq_zero.mp (sum_trackerResults_modEq s.lastSteps hrst)

/-- Two motions one after the other are their sum. -/
theorem counterAfter_counterAfter {bits : Nat} (l : BitVec bits) (m n : Int) :
    counterAfter (counterAfter l m) n = counterAfter l (m + n) :=
  tc_eq_of_emod_eq (by rw [zext_counterAfter, Int.emod_add_emod, add_assoc])

theorem counterAfter_zero {bits : Nat} (l : BitVec bits) : counterAfter l 0 = l := by
  rw [counterAfter, add_zero, tc_zext]

theorem deltaCycle_encode_delta (r : Reading) (idle : InputPorts) : deltaCycle (encode (.delta r) idle) = true :=
  deltaCycle_of_delta rfl rfl

/-- The polls leave the counter's value after the total motion. -/
theorem registerAfter_pollsAfterMotions (l : Reading) (ms : List Int) :
    registerAfter l (pollsAfterMotions l ms) = counterAfter l ms.sum := by
  induction ms generalizing l with
  | nil => exact (counterAfter_zero l).symm
  | cons m ms ih =>
    calc registerAfter l (pollsAfterMotions l (m :: ms))
        = registerAfter (counterAfter l m) (pollsAfterMotions (counterAfter l m) ms) := by
          rw [pollsAfterMotions, registerAfter_cons, cycleRegister_of_deltaCycle _ (deltaCycle_encode_delta _ _)]
          rfl
      _ = counterAfter l (m :: ms).sum := by rw [ih, counterAfter_counterAfter, List.sum_cons]

/-- Each poll answers the motion before it, and starts the next interval at the reading it stored. -/
theorem trackerResults_pollsAfterMotions (l : Reading) (ms : List Int) (hms : motionsTrustworthy l ms) :
    trackerResults l (pollsAfterMotions l ms) = ms := by
  induction ms generalizing l with
  | nil => rfl
  | cons m ms ih =>
    obtain ⟨hm, hcross, hrest⟩ := hms
    calc trackerResults l (pollsAfterMotions l (m :: ms))
        = trackerDelta l (counterAfter l m) ::
            trackerResults (counterAfter l m) (pollsAfterMotions (counterAfter l m) ms) :=
          trackerResults_cons_of_deltaCycle _ _ (deltaCycle_encode_delta _ _)
      _ = m :: ms := by rw [trackerDelta_counterAfter Config.BITS_pos l hm hcross, ih _ hrest]

/-- Settles O45, by the two inductions over the motions. -/
theorem trustworthyDeltasSumExactly : Obligations.TrustworthyDeltasSumExactly := by
  intro s ms hms
  obtain ⟨t, hend, hregister, -⟩ := runEnd_register s (pollsAfterMotions s.lastSteps ms)
  refine ⟨?_, t, hend, hregister.trans (registerAfter_pollsAfterMotions _ ms)⟩
  rw [deltasOf_runResponses, trackerResults_pollsAfterMotions _ ms hms]

end Sys2Proof.Safety
end

section
/-!
SUPPORT. The estimator's result by the index of the first maximum (41_line_position.md section 3, R81 and R82;
95_test_vectors.md section 2.7).
-/

namespace Sys2Proof.Machine

variable {sw : Nat}

/-- The seven positions of R82. -/
theorem posQ_mem (i : Fin 8) : posQ[i] ∈ [(4 : Int), 3, 2, 0, -2, -3, -4] := by
  revert i
  decide

theorem lineEstimate_absent_or_entry (threshold : BitVec sw) (m : LightMap sw) :
    lineEstimate threshold m = none ∨ ∃ i : Fin 8, lineEstimate threshold m = some posQ[i] := by
  rw [lineEstimate_eq]
  split
  · exact .inl rfl
  · exact .inr ⟨_, rfl⟩

/-- R82. The sample at the first maximum decides between absent and the table's entry. -/
theorem lineEstimate_eq_of_firstMax (threshold : BitVec sw) {m : LightMap sw} {i : Fin 8}
    (hmax : ∀ j : Fin 8, m[j].toNat ≤ m[i].toNat) (hfirst : ∀ j : Fin 8, j < i → m[j].toNat < m[i].toNat) :
    lineEstimate threshold m = if threshold.toNat ≤ m[i].toNat then some posQ[i] else none := by
  split
  case isTrue hreach => exact lineEstimate_of_firstMax hreach hmax hfirst
  case isFalse hbelow => exact lineEstimate_of_all_below fun j => (hmax j).trans_lt (not_le.mp hbelow)

/-- Settles O37: both maps have their result from the same entry and the same side of the threshold. -/
theorem estimateIsNoCentroid : Obligations.EstimateIsNoCentroid := by
  refine ⟨fun sw sw' threshold threshold' m m' i hmax hfirst hmax' hfirst' hside => ?_, fun sw threshold m => ?_⟩
  · rw [lineEstimate_eq_of_firstMax threshold hmax hfirst, lineEstimate_eq_of_firstMax threshold' hmax' hfirst']
    simp only [hside]
  · rcases lineEstimate_absent_or_entry threshold m with h | ⟨i, h⟩
    · rw [h]
      exact List.mem_cons_self
    · rw [h]
      exact List.mem_cons_of_mem _ (List.mem_map_of_mem (f := some) (posQ_mem i))

/-- A sample larger than every other one is the first maximum. -/
theorem lineEstimate_of_largest {threshold : BitVec sw} {m : LightMap sw} {i : Fin 8}
    (hreach : threshold.toNat ≤ m[i].toNat) (hlargest : ∀ j : Fin 8, j ≠ i → m[j].toNat < m[i].toNat) :
    lineEstimate threshold m = some posQ[i] := by
  refine lineEstimate_of_firstMax hreach (fun j => ?_) fun j hj => hlargest j hj.ne
  by_cases hj : j = i
  · rw [hj]
  · exact (hlargest j hj).le

/-- A maximum that no earlier index holds is the first maximum, whoever shares it later. -/
theorem lineEstimate_of_earliest {threshold : BitVec sw} {m : LightMap sw} {i : Fin 8}
    (hreach : threshold.toNat ≤ m[i].toNat) (hmax : ∀ j : Fin 8, m[j].toNat ≤ m[i].toNat)
    (hearliest : ∀ j : Fin 8, j < i → m[j] ≠ m[i]) : lineEstimate threshold m = some posQ[i] :=
  lineEstimate_of_firstMax hreach hmax fun j hj =>
    (hmax j).lt_of_ne fun heq => hearliest j hj (BitVec.eq_of_toNat_eq heq)

/-- A maximum at index 0 is the first maximum. -/
theorem lineEstimate_of_max_zero {threshold : BitVec sw} {m : LightMap sw} (hreach : threshold.toNat ≤ m[0].toNat)
    (hmax : ∀ j : Fin 8, m[j].toNat ≤ m[0].toNat) : lineEstimate threshold m = some 4 :=
  lineEstimate_of_firstMax (i := 0) hreach hmax fun j hj => absurd hj (Fin.not_lt_zero j)

theorem lineEstimate_replicate (threshold v : BitVec sw) :
    lineEstimate threshold (Vector.replicate 8 v) = if v.toNat < threshold.toNat then none else some 4 := by
  split
  case isTrue hbelow => exact lineEstimate_of_all_below fun j => by simpa using hbelow
  case isFalse hreach => exact lineEstimate_of_max_zero (by simpa using hreach) fun j => by simp

/-- Settles O38, row by row. -/
theorem estimateCornerCases : Obligations.EstimateCornerCases := by
  refine ⟨fun sw threshold m i hreach hlone => ?_, fun sw threshold m i hreach hlargest => ?_,
    fun sw => lineEstimate_replicate, fun sw threshold m i k _ hreach _ hmax hearliest => ?_,
    fun sw threshold m hreach _ hmax => lineEstimate_of_max_zero hreach hmax,
    fun sw threshold m i hmax => ⟨fun hmeets => ?_, fun hmisses => ?_⟩, fun sw threshold => lineEstimate_replicate_zero⟩
  · exact lineEstimate_of_largest hreach fun j hj => (hlone j hj).trans_le hreach
  · exact lineEstimate_of_largest hreach hlargest
  · exact lineEstimate_of_earliest hreach hmax hearliest
  · rw [Option.isSome_iff_ne_none, Ne, lineEstimate_eq_none_iff]
    exact fun hbelow => (hbelow i).ne hmeets
  · exact lineEstimate_of_all_below fun j => (hmax j).trans_lt (by omega)

/-- Settles O39: a set bit is a maximum of its map and meets the threshold. -/
theorem oneBitEstimatorIsPriorityEncoder : Obligations.OneBitEstimatorIsPriorityEncoder := by
  intro m
  refine ⟨fun hzero => lineEstimate_of_all_below fun j => ?_, fun i hset hlowest => ?_⟩
  · rw [hzero j]
    decide
  · refine lineEstimate_of_earliest (by rw [hset]) (fun j => ?_) fun j hj => ?_
    · have := m[j].isLt
      rw [hset]
      exact Nat.le_of_lt_succ this
    · rw [hset, hlowest j hj]
      decide

end Sys2Proof.Machine
end

section
/-!
SUPPORT. What a cycle answers, in every state: the response is one the block can give and its ports decode to it
(30_encoding.md section 4, R49 to R51), and only the operand port that the request reads has an effect (section 1, R43).
-/

namespace Sys2Proof.Machine

theorem outputs_delta_of_response {s : State} {d : Int} (h : s.response = .delta d) :
    s.outputs.delta = deltaCode Config.BITS d := by
  simp only [State.outputs, h]

theorem outputs_line_of_response {s : State} {p : Option Int} (h : s.response = .line p) :
    s.outputs.present = p.isSome ∧ s.outputs.pos = posCode p := by
  simp only [State.outputs, h, and_self]

end Sys2Proof.Machine

namespace Sys2Proof.Safety

open Sys2Proof.Machine

/-- A step is a cycle of a run with the inputs it samples, listed or free. -/
theorem step_register_response {s t : State} (h : step s = .next t) :
    t.lastSteps = cycleRegister s.lastSteps s.sampledInputs ∧
      t.response = cycleResponse s.lastSteps s.sampledInputs := by
  obtain ⟨u, hu, hregister, -, hresponse⟩ := step_withInputs_cons s s.sampledInputs s.pending.tail
  have hs : step s = .next u := hu
  obtain rfl : t = u := by simpa [hs] using h.symm
  exact ⟨hregister, hresponse⟩

/-- R106, R87, R57 and R73: what a cycle can answer. -/
theorem cycleResponse_cases (l : Reading) (p : InputPorts) :
    cycleResponse l p = .none ∨ cycleResponse l p = .delta (trackerDelta l p.steps) ∨
      cycleResponse l p = .line (lineEstimate Config.THRESHOLD (unpackLight p.light)) := by
  rw [cycleResponse]
  split
  · exact .inl rfl
  · split
    · exact .inr (.inl rfl)
    · split
      · exact .inr (.inr rfl)
      · exact .inl rfl

/-- Settles O46: what a cycle answers does not depend on the response before it. -/
theorem stepKeepsResponsePossible : Obligations.StepKeepsResponsePossible := by
  intro s t _ h
  obtain ⟨-, hresponse⟩ := step_register_response h
  rcases cycleResponse_cases s.lastSteps s.sampledInputs with hc | hc | hc
  · rw [hresponse, hc]
    exact ⟨trivial, nofun, nofun⟩
  · have ht := hresponse.trans hc
    rw [outputs_delta_of_response ht, ht]
    refine ⟨trackerDelta_range _ _, fun d hd => ?_, nofun⟩
    rw [← Response.delta.inj hd, deltaCode_trackerDelta_toInt]
  · have ht := hresponse.trans hc
    rcases lineEstimate_absent_or_entry Config.THRESHOLD (unpackLight s.sampledInputs.light) with he | ⟨i, he⟩
    · rw [ht, he]
      exact ⟨trivial, nofun, nofun⟩
    · obtain ⟨hpresent, hpos⟩ := outputs_line_of_response ht
      rw [hpresent, hpos, ht, he]
      refine ⟨posQ_mem i, nofun, fun q hq => ⟨rfl, ?_⟩⟩
      obtain rfl : posQ[i] = q := by simpa using hq
      exact posCode_posQ_toInt i

/-- Settles O47: there is no response after reset. -/
theorem resetResponsePossible : Obligations.ResetResponsePossible := trivial

/-- The register reads the `steps` port of a DELTA alone. -/
theorem cycleRegister_congr (l : Reading) {p p' : InputPorts} (hrst : p.rst = p'.rst) (hreq : p.req = p'.req)
    (hsteps : deltaCycle p = true → p.steps = p'.steps) : cycleRegister l p = cycleRegister l p' := by
  have hdelta : deltaCycle p = deltaCycle p' := by rw [deltaCycle, deltaCycle, hrst, hreq]
  rw [cycleRegister, cycleRegister, ← hrst, ← hdelta]
  split
  · rfl
  · split
    case isTrue hd => exact hsteps hd
    case isFalse => rfl

/-- The response reads the `steps` port of a DELTA and the `light` port of an ESTIMATE alone. -/
theorem cycleResponse_congr (l : Reading) {p p' : InputPorts} (hrst : p.rst = p'.rst) (hreq : p.req = p'.req)
    (hsteps : deltaCycle p = true → p.steps = p'.steps) (hlight : estimateCycle p = true → p.light = p'.light) :
    cycleResponse l p = cycleResponse l p' := by
  have hdelta : deltaCycle p = deltaCycle p' := by rw [deltaCycle, deltaCycle, hrst, hreq]
  have hestimate : estimateCycle p = estimateCycle p' := by rw [estimateCycle, estimateCycle, hrst, hreq]
  rw [cycleResponse, cycleResponse, ← hrst, ← hdelta, ← hestimate]
  split
  · rfl
  · split
    case isTrue hd => rw [hsteps hd]
    case isFalse =>
      split
      case isTrue he => rw [hlight he]
      case isFalse => rfl

/-- Settles O20: register and response after a step are functions of the ports that the request reads. -/
theorem unreadPortsHaveNoEffect : Obligations.UnreadPortsHaveNoEffect := by
  intro s s' t t' hregister hrst hreq hsteps hlight h h'
  obtain ⟨htregister, htresponse⟩ := step_register_response h
  obtain ⟨htregister', htresponse'⟩ := step_register_response h'
  rw [htregister, htresponse, htregister', htresponse', ← hregister]
  exact ⟨cycleRegister_congr _ hrst hreq hsteps, cycleResponse_congr _ hrst hreq hsteps hlight⟩

end Sys2Proof.Safety
end

section
/-!
SUPPORT. The cycle and its requests one by one: what each changes, leaves unchanged and puts on the ports
(30_encoding.md sections 4 and 5, 10_state.md, 42_no_operation.md section 1, 70_reset_and_hazards.md section 1).
-/

namespace Sys2Proof.Machine

/-- Settles O1: the sampling lemmas of the state, for a pending list that gives the edge and for one that does not. -/
theorem stepRunsSampledRequest : Obligations.StepRunsSampledRequest := by
  refine ⟨fun s hr => step_of_request hr, fun s => ⟨rfl, rfl, rfl⟩, fun s p ps hp => ?_, fun s hp => ?_⟩
  · exact ⟨sampledInputs_of_pending s hp, by rw [consumeInputs_pending, hp, List.tail_cons]⟩
  · exact ⟨sampledInputs_of_empty s hp, by rw [consumeInputs_pending, hp, List.tail_nil]⟩

/-- Settles O4, by the definition of the state after reset. -/
theorem resetStateHoldsZero : Obligations.ResetStateHoldsZero := ⟨BitVec.toNat_zero, rfl⟩

/-- Settles O5: the requests complete in every state, and no clause looks at the value of `last_steps`. -/
theorem powerUpRequestsComplete : Obligations.PowerUpRequestsComplete := by
  refine ⟨⟨_, exec_nop _, rfl⟩, fun m => ⟨_, _, exec_estimate m _, exec_estimate m _, rfl⟩,
    fun r => ⟨_, exec_delta r _, rfl, rfl⟩, fun p hp => ⟨_, step_of_reset ?_, takeReset_lastSteps _⟩⟩
  rw [sampledInputs_drive, hp]

/-- Settles O7: both words decode to NOP, whose only effect is the empty response. -/
theorem nopDoesNothing : Obligations.NopDoesNothing :=
  ⟨fun steps light => ⟨decode_nop steps light, decode_nop_second steps light⟩,
    fun s => ⟨_, exec_nop s, rfl, rfl, rfl, outputs_respond_none s⟩⟩

/-- What a completed request leaves unchanged, in the order of the requests. -/
theorem exec_frame {i : Instr} {s t : State} (h : exec i s = .next t) :
    t.pending = s.pending ∧ t.draws = s.draws + 1 ∧ ((∀ r, i ≠ .delta r) → t.lastSteps = s.lastSteps) := by
  cases i with
  | nop =>
    obtain rfl := Host.Outcome.next.inj (exec_nop s ▸ h)
    exact ⟨rfl, rfl, fun _ => rfl⟩
  | delta r =>
    obtain rfl := Host.Outcome.next.inj (exec_delta r s ▸ h)
    exact ⟨rfl, rfl, fun hne => absurd rfl (hne r)⟩
  | estimate m =>
    obtain rfl := Host.Outcome.next.inj (exec_estimate m s ▸ h)
    exact ⟨rfl, rfl, fun _ => rfl⟩

/-- R79, R87: two states answer a request that is no DELTA alike. -/
theorem exec_response_congr {i : Instr} {s s' t t' : State} (hne : ∀ r, i ≠ .delta r) (h : exec i s = .next t)
    (h' : exec i s' = .next t') : t.response = t'.response := by
  cases i with
  | nop =>
    obtain rfl := Host.Outcome.next.inj (exec_nop s ▸ h)
    obtain rfl := Host.Outcome.next.inj (exec_nop s' ▸ h')
    rfl
  | delta r => exact absurd rfl (hne r)
  | estimate m =>
    obtain rfl := Host.Outcome.next.inj (exec_estimate m s ▸ h)
    obtain rfl := Host.Outcome.next.inj (exec_estimate m s' ▸ h')
    rfl

/-- Settles O10: the frame of each request and its independence of the state. -/
theorem onlyDeltaTouchesRegister : Obligations.OnlyDeltaTouchesRegister :=
  ⟨fun _ _ _ => exec_frame, fun _ _ _ _ _ => exec_response_congr⟩

/-- Settles O19: the ports of each kind of response, the reset cycle's among them. -/
theorem unselectedPortsAreFree : Obligations.UnselectedPortsAreFree := by
  refine ⟨fun s => ⟨_, exec_nop s, rfl, outputs_respond_none s⟩, fun s r => ⟨_, exec_delta r s, rfl, ?_⟩,
    fun s m => ⟨_, exec_estimate m s, rfl, ?_⟩,
    fun s hr => ⟨_, step_of_reset hr, rfl, outputs_takeReset s.consumeInputs⟩⟩
  · rw [outputs_respond_delta]
    exact ⟨rfl, rfl⟩
  · rw [outputs_respond_line]
    rfl

end Sys2Proof.Machine
end

section
/-!
SUPPORT. The build's parameters (00_scope.md section 3, R5 and R6) and the lines of a listing (30_encoding.md section 6,
R55 and R56).
-/

namespace Sys2Proof

theorem buildWellFormed_iff (bits sw threshold : Nat) : buildWellFormed bits sw threshold = true ↔
    1 ≤ bits ∧ 1 ≤ sw ∧ 1 ≤ threshold ∧ threshold ≤ 2 ^ sw - 1 := by
  simp only [buildWellFormed, Bool.and_eq_true, decide_eq_true_eq, and_assoc]

/-- Settles O48: each parameter is one more than its pick, the threshold's taken in its domain. -/
theorem buildIsLegal : Obligations.BuildIsLegal := by
  refine ⟨(buildWellFormed_iff _ _ _).mpr ⟨Config.BITS_pos, Config.SW_pos, Config.THRESHOLD_pos,
    Nat.le_sub_one_of_lt Config.THRESHOLD.isLt⟩, fun bits sw threshold hlegal => ?_⟩
  obtain ⟨hbits, hsw, hlow, hhigh⟩ := (buildWellFormed_iff _ _ _).mp hlegal
  exact ⟨bits - 1, sw - 1, threshold - 1, (Nat.sub_add_cancel hbits).symm, (Nat.sub_add_cancel hsw).symm,
    Config.thresholdOf_covers hsw hlow hhigh⟩

end Sys2Proof

namespace Sys2Proof.Machine

/-- A number that fits the port is what the port shows. -/
theorem toNat_ofNat_of_readingFits {bits n : Nat} (h : readingFits bits n = true) : (BitVec.ofNat bits n).toNat = n :=
  (BitVec.toNat_ofNat n bits).trans (Nat.mod_eq_of_lt (of_decide_eq_true h))

/-- The samples of a well-formed ESTIMATE line are what its light bus carries. -/
theorem unpackLight_of_estimate_wellFormed {bits sw : Nat} {ns : Vector Nat 8}
    (h : (Line.estimate ns).wellFormed bits sw = true) (i : Fin 8) :
    (unpackLight (packLight (ns.map (BitVec.ofNat sw))))[i].toNat = ns[i] := by
  have hfits : sampleFits sw ns[i] = true := List.all_eq_true.mp h _ (by simp)
  rw [unpackLight_packLight, Fin.getElem_fin, Vector.getElem_map]
  exact (BitVec.toNat_ofNat _ sw).trans (Nat.mod_eq_of_lt (of_decide_eq_true hfits))

/-- Settles O49, line by line. -/
theorem listingLinesDriveTheirRequests : Obligations.ListingLinesDriveTheirRequests := by
  refine fun c => ⟨fun n hn => ⟨_, rfl, rfl, rfl, toNat_ofNat_of_readingFits hn, rfl⟩, ?_,
    fun ns hns => ⟨_, rfl, rfl, rfl, unpackLight_of_estimate_wellFormed hns⟩, ⟨_, rfl, rfl, rfl⟩, ⟨_, rfl, rfl⟩, rfl⟩
  simp only [Line.inputs, BitVec.ofNat_toNat, BitVec.setWidth_eq]

end Sys2Proof.Machine
end
